-- ==== Sys2Proof/Word.lean ====
section
/-! DEFINITION. The word types of RVX10 (spec/00_scope.md R5, R6, R8; spec/10_state.md R10, R14, R18). -/

namespace Sys2Proof

/-- A 32-bit value: a general register, an operand, a result, the pc or an instruction word (R5, R6, R14). -/
abbrev Word := BitVec 32

/-- One byte of the one address space (R18). -/
abbrev Byte := BitVec 8

/-- A register number as the 5-bit fields rd, rs1 and rs2 hold it (R10, R35). -/
abbrev RegNum := BitVec 5

end Sys2Proof
end

