-- ==== Sys2Proof/Config.lean ====
section
/-! DEFINITION. The parameters of spec/00_scope.md R7 that have one value in this model. The OPEN parameters are arguments:
`RESET_PC`, `MemMap` and the launch registers of `Machine.State.launch`, `BaseStep` and `ENDIAN` of `Machine.stepWith`,
those and `EndOfRun` of `Machine.runWith`, all of them of `Machine.runFromLaunch`. What `State.reset` takes for them is here too, each with its log entry. -/

namespace Sys2Proof

/-- XLEN, the width of a register, fixed by the source (R5). -/
def Config.xlen : Nat := 32

/-- ILEN, the length of an instruction in bits, fixed by the source (R6). -/
def Config.ilen : Nat := 32

/-- NREGS, the number of general registers (R10, the spec's decision D2). -/
def Config.nregs : Nat := 32

/-- PCWIDTH, the width of the program counter (R14, the spec's decision D3). -/
def Config.pcWidth : Nat := 32

/-- The two byte orders the parameter `ENDIAN` can name (R23). -/
inductive Endian where
  | little
  | big
deriving DecidableEq, Repr

/-- `ENDIAN`: the spec's default is little (R23, its decision D4). DESIGN CHOICE to take the default, unsafe: log 4. -/
def Config.endian : Endian := .little

/-- `ABS_INT_MIN`: the result of ABS on 0x80000000 (R69, the spec's decision D8). Unsafe if the hardware saturates: log 5. -/
def Config.absIntMin : Word := 0x80000000#32

/-- `RESET_PC` is OPEN in the spec (R101). DESIGN CHOICE 0 for `State.reset`, unsafe: log 2. -/
def Config.resetPc : Word := 0x00000000#32

/-- The spec gives x1 to x31 no reset value (R19). DESIGN CHOICE 0 for `State.reset`, unsafe: log 1. -/
def Config.resetReg : Word := 0x00000000#32

end Sys2Proof
end

