-- ==== Sys2Proof/Machine/State.lean ====
section
/-! DEFINITION. The architectural state (spec/10_state.md R17: exactly the general registers, the pc and memory), the
ways a step can stop (spec/60_exceptions.md R80) and the state at launch (spec/70_reset_and_hazards.md R100). -/

namespace Sys2Proof.Machine

/-- The backed bytes of the one address space (R18, R21): address and byte pairs with addresses strictly rising and
below 2^32 (`Memory.wf`). An address not listed is not backed and reads as no value: log 3. -/
abbrev Memory := List Host.Cell

/-- The triple (`x`, `pc`, `mem`) of R17. -/
structure State where
  /-- x1 to x31: entry r - 1 holds register r. x0 is hardwired to zero and has no storage (R10, R11). -/
  x : Vector Word 31
  /-- The byte address of the current instruction (R14). -/
  pc : Word
  /-- The memory that instructions are fetched from (R18, R21). -/
  mem : Memory
deriving DecidableEq, Repr

/-- The faults of R80. Each is a terminal outcome that changes nothing (R84). All are safe: the model stops where the
hardware may go on (the spec's decisions D5, D6, D7, D11). -/
inductive Fault where
  /-- Raised by the fetch when `pc[1:0]` is not 00 (R25). Safe. -/
  | fetchMisaligned (pc : Word)
  /-- Raised by the fetch when one of the bytes pc to pc + 3 is not backed (R22). Safe. -/
  | fetchAccess (pc : Word)
  /-- Raised for a reserved encoding under opcode 0x0B and by nothing else (R43, R81). Safe. -/
  | illegalInstruction (inst : Word)
deriving DecidableEq, Repr

/-- The refusals: what the model gives no meaning. -/
inductive Refusal where
  /-- Raised by the default `BaseStep` for a word whose opcode is not 0x0B (R70, R80). Safe: the model stops. -/
  | baseRefused (inst : Word)
  /-- Only for an arm of `exec` that has no meaning yet. No arm raises it. Safe. -/
  | notModelled (mnemonic : String)
deriving DecidableEq, Repr

/-- The launch state that reset establishes (R100), from the parameters the spec leaves open: the values of x1 to
x31 (R19), `RESET_PC` (R101) and `MemMap` (R21). -/
def State.launch (x : Vector Word 31) (resetPc : Word) (memMap : Memory) : State :=
  { x := x, pc := resetPc, mem := memMap }

/-- The state right after reset. x0 reads as zero (R11). The spec leaves the rest open: x1 to x31 hold
`Config.resetReg` (log 1), the pc `Config.resetPc` (log 2), and no byte of memory is backed (log 3). -/
def State.reset : State :=
  State.launch (Vector.replicate 31 Config.resetReg) Config.resetPc []

end Sys2Proof.Machine
end

