-- ==== Sys2Proof/Machine/Base.lean ====
section
/-! DEFINITION. The boundary with the base ISA (spec/49_base_isa_boundary.md R70): the default `BaseStep`. -/

namespace Sys2Proof.Machine

/-- The default `BaseStep`, the only value the spec vouches for: a word whose opcode is not 0x0B is refused under the
name R80 gives it, with the word carried (R70, the spec's decision D1: log 6). -/
def baseStep (inst : Word) (_s : State) : Host.Outcome State Fault Refusal := .refused (.baseRefused inst)

end Sys2Proof.Machine
end

