-- ==== Sys2Proof/Machine/Bits.lean ====
section
/-! DEFINITION. The primitives on 32-bit values of spec/00_scope.md section 5.1 and the two readings of R9. The bitwise
operators `~`, `&`, `|`, `^` and addition modulo 2^32 are those of `BitVec 32`. -/

namespace Sys2Proof.Machine

/-- `unsigned(v)`, in 0 to 2^32 - 1 (R9). -/
def unsigned (v : Word) : Nat := v.toNat

/-- `signed(v)`, the two's-complement reading: `unsigned(v)`, less 2^32 when bit 31 is set (R9). -/
def signed (v : Word) : Int :=
  if v.getLsbD 31 then (v.toNat : Int) - 2 ^ 32 else (v.toNat : Int)

/-- `zext_N(v)`, zero extension to N bits (section 5.1). -/
def zext {w : Nat} (n : Nat) (v : BitVec w) : BitVec n := v.setWidth n

/-- `sext_N(v)`, sign extension to N bits (section 5.1). No rule of the spec uses it. -/
def sext {w : Nat} (n : Nat) (v : BitVec w) : BitVec n := v.signExtend n

/-- `a << n`, logical, 0 <= n <= 32, with `a << 32 = 0` (section 5.1). -/
def shl (a : Word) (n : Nat) : Word := a <<< n

/-- `a >> n`, logical, 0 <= n <= 32, with `a >> 32 = 0` (section 5.1, C2). -/
def shr (a : Word) (n : Nat) : Word := a >>> n

/-- `rotl32(a, n)`, 0 <= n <= 31, by the source's formula. A distance of 0 gives `a` (section 5.1, C2). -/
def rotl32 (a : Word) (n : Nat) : Word := shl a n ||| shr a (32 - n)

/-- `rotr32(a, n)`, 0 <= n <= 31 (section 5.1, C2). -/
def rotr32 (a : Word) (n : Nat) : Word := shr a n ||| shl a (32 - n)

/-- `-a = (~a) + 1` modulo 2^32 (section 5.1). -/
def neg (a : Word) : Word := ~~~a + 1#32

end Sys2Proof.Machine
end

