-- ==== Sys2Proof/Syntax.lean ====
section
/-! DEFINITION. The instructions of RVX10, one constructor for each row of spec/opcode_table.json (R2, R39). -/

namespace Sys2Proof

/-- The ten instructions with their operands in the order of the assembly text: rd, rs1, rs2 (R48). ABS has no
rs2: its field is ignored (R42, R49). No instruction has an immediate (R41). -/
inductive Instr where
  | andn (rd rs1 rs2 : RegNum)
  | orn  (rd rs1 rs2 : RegNum)
  | xnor (rd rs1 rs2 : RegNum)
  | min  (rd rs1 rs2 : RegNum)
  | max  (rd rs1 rs2 : RegNum)
  | minu (rd rs1 rs2 : RegNum)
  | maxu (rd rs1 rs2 : RegNum)
  | rol  (rd rs1 rs2 : RegNum)
  | ror  (rd rs1 rs2 : RegNum)
  | abs  (rd rs1 : RegNum)
deriving DecidableEq, Repr

/-- The destination register, the only register an instruction writes (R12). -/
def Instr.dest : Instr → RegNum
  | .andn rd _ _ | .orn rd _ _ | .xnor rd _ _ => rd
  | .min rd _ _ | .max rd _ _ | .minu rd _ _ | .maxu rd _ _ => rd
  | .rol rd _ _ | .ror rd _ _ => rd
  | .abs rd _ => rd

/-- The first source register, read by every instruction (R12). -/
def Instr.src1 : Instr → RegNum
  | .andn _ rs1 _ | .orn _ rs1 _ | .xnor _ rs1 _ => rs1
  | .min _ rs1 _ | .max _ rs1 _ | .minu _ rs1 _ | .maxu _ rs1 _ => rs1
  | .rol _ rs1 _ | .ror _ rs1 _ => rs1
  | .abs _ rs1 => rs1

/-- The second source register, absent for ABS (R12, R42). -/
def Instr.src2 : Instr → Option RegNum
  | .andn _ _ rs2 | .orn _ _ rs2 | .xnor _ _ rs2 => some rs2
  | .min _ _ rs2 | .max _ _ rs2 | .minu _ _ rs2 | .maxu _ _ rs2 => some rs2
  | .rol _ _ rs2 | .ror _ _ rs2 => some rs2
  | .abs _ _ => none

/-- The mnemonic in the lower-case spelling of the table (R48). -/
def Instr.mnemonic : Instr → String
  | .andn _ _ _ => "andn"
  | .orn _ _ _ => "orn"
  | .xnor _ _ _ => "xnor"
  | .min _ _ _ => "min"
  | .max _ _ _ => "max"
  | .minu _ _ _ => "minu"
  | .maxu _ _ _ => "maxu"
  | .rol _ _ _ => "rol"
  | .ror _ _ _ => "ror"
  | .abs _ _ => "abs"

end Sys2Proof
end

