-- ==== Sys2Proof/WellFormed.lean ====
section
/-! DEFINITION. Which terms are well-formed. A register number is legal when the register exists (R10, R82). The
operands of `Instr` are 5-bit fields, so every `Instr` passes; a line of assembly text can fail (R48 to R50). -/

namespace Sys2Proof

/-- Register `n` exists: there are NREGS of them, numbered from 0 (R10). -/
def regExists (n : Nat) : Bool := decide (n < Config.nregs)

/-- Every register an instruction names exists (R10, R82). -/
def Instr.wellFormed (i : Instr) : Bool :=
  regExists i.dest.toNat && regExists i.src1.toNat && (i.src2.all fun r => regExists r.toNat)

/-- A line of assembly text split into its mnemonic and the numbers of its register operands (R48, R50). -/
structure AsmLine where
  mnemonic : String
  operands : List Nat
deriving DecidableEq, Repr

/-- The ten mnemonics in the source's order (R2). -/
def mnemonics : List String :=
  ["andn", "orn", "xnor", "min", "max", "minu", "maxu", "rol", "ror", "abs"]

/-- How many operands a mnemonic takes: two for ABS (R49), three for the other nine (R48), none for no mnemonic of RVX10. -/
def operandCount (m : String) : Option Nat :=
  if m = "abs" then some 2 else if m ∈ mnemonics then some 3 else none

/-- A line names one of the ten, with its number of operands, all of them registers that exist (R48 to R50). -/
def AsmLine.wellFormed (l : AsmLine) : Bool :=
  decide (operandCount l.mnemonic = some l.operands.length) && l.operands.all regExists

end Sys2Proof
end

