-- ==== Sys2Proof/Decode.lean ====
section
/-! DEFINITION. The encoding of spec/30_encoding.md: byte order of the fetch (R23), fields (R35), opcode map (R39), the total
decoder (R40), the encoder (R36, R42) and the match and mask table (R44). -/

namespace Sys2Proof

/-! ## Bytes and words (spec/20_memory.md R23) -/

/-- The word whose four bytes stand at rising addresses as `b0 b1 b2 b3` (R23). -/
def wordOfBytes : Endian → Byte → Byte → Byte → Byte → Word
  | .little, b0, b1, b2, b3 => b3 ++ b2 ++ b1 ++ b0
  | .big, b0, b1, b2, b3 => b0 ++ b1 ++ b2 ++ b3

/-- Byte `k` of a word, byte 0 the least significant. -/
def byteOf (w : Word) (k : Nat) : Byte := w.extractLsb' (8 * k) 8

/-- The four bytes of a word in the order they stand at rising addresses (R23). -/
def bytesOfWord : Endian → Word → List Byte
  | .little, w => [byteOf w 0, byteOf w 1, byteOf w 2, byteOf w 3]
  | .big, w => [byteOf w 3, byteOf w 2, byteOf w 1, byteOf w 0]

/-! ## Fields of the R-type word (R35) -/

/-- `inst[6:0]`. -/
def opcodeOf (w : Word) : BitVec 7 := w.extractLsb' 0 7
/-- `inst[11:7]`. -/
def rdOf (w : Word) : RegNum := w.extractLsb' 7 5
/-- `inst[14:12]`. -/
def funct3Of (w : Word) : BitVec 3 := w.extractLsb' 12 3
/-- `inst[19:15]`. -/
def rs1Of (w : Word) : RegNum := w.extractLsb' 15 5
/-- `inst[24:20]`. -/
def rs2Of (w : Word) : RegNum := w.extractLsb' 20 5
/-- `inst[31:25]`. -/
def funct7Of (w : Word) : BitVec 7 := w.extractLsb' 25 7

/-- The opcode of every RVX10 instruction, 0x0B, the source's CUSTOM-0 (R37). -/
def opcodeRvx10 : BitVec 7 := 0b0001011#7

/-! ## Decoding -/

/-- The opcode map (R39): the pair (funct7, funct3) of each of the ten, given the fields rd, rs1, rs2. ABS drops its
rs2 field (R42). Every other pair is reserved (R43); all bits of funct7 are compared. -/
def opcodeMap (funct7 : BitVec 7) (funct3 : BitVec 3) : Option (RegNum → RegNum → RegNum → Instr) :=
  match funct7.toNat, funct3.toNat with
  | 0, 0 => some .andn
  | 0, 1 => some .orn
  | 0, 2 => some .xnor
  | 1, 0 => some .min
  | 1, 1 => some .max
  | 1, 2 => some .minu
  | 1, 3 => some .maxu
  | 2, 0 => some .rol
  | 2, 1 => some .ror
  | 3, 0 => some fun rd rs1 _ => .abs rd rs1
  | _, _ => none

/-- The three outcomes of decoding a word (R40). -/
inductive Decoded where
  /-- one of the ten instructions -/
  | instr (i : Instr)
  /-- opcode other than 0x0B: the word goes to `BaseStep` (R70) -/
  | base (inst : Word)
  /-- opcode 0x0B with an unlisted pair: a reserved encoding (R43) -/
  | reserved (inst : Word)
deriving DecidableEq, Repr

/-- Decoding a fetched word, total on all words, in the order of R40: opcode, then the opcode map, then reserved. -/
def decode (inst : Word) : Decoded :=
  if opcodeOf inst = opcodeRvx10 then
    match opcodeMap (funct7Of inst) (funct3Of inst) with
    | some mk => .instr (mk (rdOf inst) (rs1Of inst) (rs2Of inst))
    | none => .reserved inst
  else .base inst

/-- Decoding the four bytes that stand at rising addresses (R22, R23, R40), total on any four bytes. -/
def decodeBytes (e : Endian) (b0 b1 b2 b3 : Byte) : Decoded := decode (wordOfBytes e b0 b1 b2 b3)

/-! ## Encoding -/

/-- The word assembled from its fields by the formula of R36, each field an unsigned number of its width. -/
def encodeR (funct7 : BitVec 7) (rs2 rs1 : RegNum) (funct3 : BitVec 3) (rd : RegNum) : Word :=
  (funct7.setWidth 32 <<< 25) ||| (rs2.setWidth 32 <<< 20) ||| (rs1.setWidth 32 <<< 15) |||
    (funct3.setWidth 32 <<< 12) ||| (rd.setWidth 32 <<< 7) ||| opcodeRvx10.setWidth 32

/-- The word of an instruction (R36 with the codes of R39). ABS gets the canonical rs2 field 00000 (R42, R49). -/
def encode : Instr → Word
  | .andn rd rs1 rs2 => encodeR 0b0000000#7 rs2 rs1 0b000#3 rd
  | .orn rd rs1 rs2  => encodeR 0b0000000#7 rs2 rs1 0b001#3 rd
  | .xnor rd rs1 rs2 => encodeR 0b0000000#7 rs2 rs1 0b010#3 rd
  | .min rd rs1 rs2  => encodeR 0b0000001#7 rs2 rs1 0b000#3 rd
  | .max rd rs1 rs2  => encodeR 0b0000001#7 rs2 rs1 0b001#3 rd
  | .minu rd rs1 rs2 => encodeR 0b0000001#7 rs2 rs1 0b010#3 rd
  | .maxu rd rs1 rs2 => encodeR 0b0000001#7 rs2 rs1 0b011#3 rd
  | .rol rd rs1 rs2  => encodeR 0b0000010#7 rs2 rs1 0b000#3 rd
  | .ror rd rs1 rs2  => encodeR 0b0000010#7 rs2 rs1 0b001#3 rd
  | .abs rd rs1      => encodeR 0b0000011#7 0b00000#5 rs1 0b000#3 rd

/-! ## Match and mask (R44), a second description of the same encodings -/

/-- The mask of all ten rows: funct7, funct3 and opcode (R44). -/
def rowMask : Word := 0xFE00707F#32

/-- The match values of R44 in the order of the table, by mnemonic. -/
def matchRows : List (String × Word) :=
  [("andn", 0x0000000B#32), ("orn", 0x0000100B#32), ("xnor", 0x0000200B#32)] ++
  [("min", 0x0200000B#32), ("max", 0x0200100B#32), ("minu", 0x0200200B#32), ("maxu", 0x0200300B#32)] ++
  [("rol", 0x0400000B#32), ("ror", 0x0400100B#32), ("abs", 0x0600000B#32)]

/-- The mnemonics of the rows a word matches: `(inst & mask) = match` (R44). -/
def matchingRows (inst : Word) : List String :=
  (matchRows.filter fun row => inst &&& rowMask == row.2).map (·.1)

/-- A word is canonical when the encoder yields it: an RVX10 word, with the rs2 field zero if it is an ABS (R42, R47). -/
def isCanonical (inst : Word) : Bool :=
  match decode inst with
  | .instr i => encode i == inst
  | _ => false

/-! ## The host's view -/

/-- The instruction read from the row word `w` of `nbits` bits, its bits numbered as spec/opcode_table.json numbers
them and all higher bits 0: laid out as the hardware stores it (R23), then decoded. -/
def decodeTableWord (nbits w : Nat) : Option Instr :=
  match bytesOfWord Config.endian (BitVec.ofNat 32 (w % 2 ^ nbits)) with
  | [b0, b1, b2, b3] =>
    match decodeBytes Config.endian b0 b1 b2 b3 with
    | .instr i => some i
    | _ => none
  | _ => none

end Sys2Proof
end

