-- ==== Sys2Proof/Machine/Ops.lean ====
section
/-! DEFINITION. The named operations over memory, registers and the pc, and the one way a step ends in a fault. -/

namespace Sys2Proof.Machine

/-! ## Memory (spec/10_state.md R18, spec/20_memory.md R20 to R23) -/

/-- The canonical form above a bound: addresses strictly rising from `lo`, all below 2^32. -/
def Memory.wfFrom : Nat → Memory → Bool
  | _, [] => true
  | lo, (a, _) :: rest => decide (lo ≤ a) && decide (a < 2 ^ 32) && Memory.wfFrom (a + 1) rest

/-- The canonical form of memory: addresses strictly rising and inside the space of 2^32 bytes (R18). -/
def Memory.wf (m : Memory) : Bool := Memory.wfFrom 0 m

/-- The byte at an address, none where no byte is backed (R21). -/
def Memory.read : Memory → Nat → Option Byte
  | [], _ => none
  | (a, b) :: rest, at_ => if a = at_ then some b else Memory.read rest at_

/-- Memory with the byte at an address set, kept in address order. Writing an unbacked address backs it. -/
def Memory.write : Memory → Nat → Byte → Memory
  | [], at_, v => [(at_, v)]
  | (a, b) :: rest, at_, v =>
    if at_ < a then (at_, v) :: (a, b) :: rest
    else if at_ = a then (a, v) :: rest
    else (a, b) :: Memory.write rest at_ v

/-- The byte at a 32-bit address (R18, R21). A read changes nothing (R20). -/
def State.readByte (s : State) (addr : Word) : Option Byte := Memory.read s.mem addr.toNat

/-- `MemRead(addr, n)` before assembly: the `n` bytes at rising addresses, none when one of them is not backed.
Addresses are taken modulo 2^32, which no rule of the spec comes to use: log 11. -/
def State.readBytes (s : State) (addr : Word) : Nat → Option (List Byte)
  | 0 => some []
  | n + 1 =>
    match s.readByte addr, State.readBytes s (addr + 1#32) n with
    | some b, some bs => some (b :: bs)
    | _, _ => none

/-- `MemRead(addr, 4)`, assembled in byte order `e` (section 5.1, R23). -/
def State.readWord (e : Endian) (s : State) (addr : Word) : Option Word :=
  match s.readBytes addr 4 with
  | some [b0, b1, b2, b3] => some (wordOfBytes e b0 b1 b2 b3)
  | _ => none

/-- Memory with bytes stored at rising addresses, modulo 2^32 (log 11). -/
def Memory.writeBytes (m : Memory) (addr : Word) : List Byte → Memory
  | [] => m
  | b :: bs => Memory.writeBytes (Memory.write m addr.toNat b) (addr + 1#32) bs

/-- The low `n` bytes of a value, n at most 4, in the order they stand at rising addresses (section 5.1, R23). -/
def lowBytes : Endian → Nat → Word → List Byte
  | .little, n, v => (bytesOfWord .little v).take n
  | .big, n, v => (bytesOfWord .big v).drop (4 - n)

/-- `MemWrite(addr, n, v)`, n at most 4 (section 5.1). No instruction of RVX10 uses it (R72): it places programs. -/
def State.memWrite (e : Endian) (s : State) (addr : Word) (n : Nat) (v : Word) : State :=
  { s with mem := Memory.writeBytes s.mem addr (lowBytes e n v) }

/-! ## General registers (spec/10_state.md R10, R11) -/

/-- `x[i]`: x0 reads as zero always, register r holds entry r - 1 of the file (R11). -/
def State.readReg (s : State) (r : RegNum) : Word :=
  if h : r = 0#5 then 0#32 else s.x[r.toNat - 1]'(by have := r.isLt; omega)

/-- `x[i] <- v`: a write of x0 is ignored (R11). -/
def State.writeReg (s : State) (r : RegNum) (v : Word) : State :=
  if h : r = 0#5 then s else { s with x := s.x.set (r.toNat - 1) v (by have := r.isLt; omega) }

/-! ## Program counter (spec/10_state.md R14, R15) -/

/-- `pc <- pc + 4`, modulo 2^32 (R15). -/
def State.advancePc (s : State) : State := { s with pc := s.pc + 4#32 }

/-! ## Faults (spec/60_exceptions.md R80, R84, R86) -/

/-- `raise <Fault>(info)`: the step ends in the named fault. This is all that taking an exception is on this hardware:
nothing is saved, no mode changes, control goes nowhere and the state stays as it was, so the outcome carries no state
(R84). There is no return from it, because nothing was saved (R86). -/
def raise (f : Fault) : Host.Outcome State Fault Refusal := .fault f

end Sys2Proof.Machine
end

