-- ==== Sys2Proof/Machine/Operands.lean ====
section
/-! DEFINITION. The operand forms of the ten instructions (spec/10_state.md R12, R13; spec/30_encoding.md R41, R42): two
registers, a register and a rotation distance held in a register, one register. Sources are read before the destination
is written, then the pc advances (spec/00_scope.md section 5.2). -/

namespace Sys2Proof.Machine

/-- The last part of every instruction: write the result to rd (ignored for x0), then `pc <- pc + 4` (R11, R15). -/
def finish (rd : RegNum) (v : Word) (s : State) : Host.Outcome State Fault Refusal :=
  .next (s.writeReg rd v).advancePc

/-- An instruction of two register operands: `a = x[rs1]; b = x[rs2]; x[rd] <- op a b; pc <- pc + 4` (R12, R13). -/
def binary (op : Word → Word → Word) (rd rs1 rs2 : RegNum) (s : State) : Host.Outcome State Fault Refusal :=
  finish rd (op (s.readReg rs1) (s.readReg rs2)) s

/-- An instruction of one register operand, which reads no second register (R42). -/
def unary (op : Word → Word) (rd rs1 : RegNum) (s : State) : Host.Outcome State Fault Refusal :=
  finish rd (op (s.readReg rs1)) s

/-- The rotation distance held in a register value: `zext_32(b[4:0])` read as a number 0 to 31. Bits 31 to 5 are
not used (R41, R67, C1). -/
def distance (b : Word) : Nat := (zext 32 (b.extractLsb' 0 5)).toNat

end Sys2Proof.Machine
end

