-- ==== Sys2Proof/Machine/Bitwise.lean ====
section
/-! DEFINITION. ANDN, ORN, XNOR (spec/40_bitwise.md). -/

namespace Sys2Proof.Machine

/-- `a & ~b` (R60). -/
def andnOf (a b : Word) : Word := a &&& ~~~b

/-- `a | ~b` (R61, the spec's decision D22). -/
def ornOf (a b : Word) : Word := a ||| ~~~b

/-- `~(a ^ b)` (R62, the spec's decision D22). -/
def xnorOf (a b : Word) : Word := ~~~(a ^^^ b)

/-- ANDN rd, rs1, rs2 (R60). -/
def execAndn (rd rs1 rs2 : RegNum) (s : State) : Host.Outcome State Fault Refusal := binary andnOf rd rs1 rs2 s

/-- ORN rd, rs1, rs2 (R61). -/
def execOrn (rd rs1 rs2 : RegNum) (s : State) : Host.Outcome State Fault Refusal := binary ornOf rd rs1 rs2 s

/-- XNOR rd, rs1, rs2 (R62). -/
def execXnor (rd rs1 rs2 : RegNum) (s : State) : Host.Outcome State Fault Refusal := binary xnorOf rd rs1 rs2 s

end Sys2Proof.Machine
end

