-- ==== Sys2Proof/Machine/Flags.lean ====
section
/-! DEFINITION. RVX10 has no flag, condition code or predicate register, and no instruction writes one (spec/10_state.md
R16). What other machines leave in flags is here the value of a condition inside one instruction: the two comparisons of
spec/00_scope.md section 5.1. -/

namespace Sys2Proof.Machine

/-- `a <s b`: `signed(a) < signed(b)` (section 5.1, R9). -/
def ltS (a b : Word) : Bool := decide (signed a < signed b)

/-- `a <u b`: `unsigned(a) < unsigned(b)` (section 5.1, R9). -/
def ltU (a b : Word) : Bool := decide (unsigned a < unsigned b)

end Sys2Proof.Machine
end

