-- ==== Sys2Proof/Machine/MinMax.lean ====
section
/-! DEFINITION. MIN, MAX, MINU, MAXU (spec/41_minmax.md). The result is one of the two operands, bit for bit. -/

namespace Sys2Proof.Machine

/-- `(a <s b) ? a : b` (R63). -/
def minOf (a b : Word) : Word := if ltS a b then a else b

/-- `(b <s a) ? a : b` (R64, the spec's decision D22). -/
def maxOf (a b : Word) : Word := if ltS b a then a else b

/-- `(a <u b) ? a : b` (R65, the spec's decision D22). -/
def minuOf (a b : Word) : Word := if ltU a b then a else b

/-- `(b <u a) ? a : b` (R66). -/
def maxuOf (a b : Word) : Word := if ltU b a then a else b

/-- MIN rd, rs1, rs2, signed (R63). -/
def execMin (rd rs1 rs2 : RegNum) (s : State) : Host.Outcome State Fault Refusal := binary minOf rd rs1 rs2 s

/-- MAX rd, rs1, rs2, signed (R64). -/
def execMax (rd rs1 rs2 : RegNum) (s : State) : Host.Outcome State Fault Refusal := binary maxOf rd rs1 rs2 s

/-- MINU rd, rs1, rs2, unsigned (R65). -/
def execMinu (rd rs1 rs2 : RegNum) (s : State) : Host.Outcome State Fault Refusal := binary minuOf rd rs1 rs2 s

/-- MAXU rd, rs1, rs2, unsigned (R66). -/
def execMaxu (rd rs1 rs2 : RegNum) (s : State) : Host.Outcome State Fault Refusal := binary maxuOf rd rs1 rs2 s

end Sys2Proof.Machine
end

