-- ==== Sys2Proof/Machine/Rotate.lean ====
section
/-! DEFINITION. ROL, ROR (spec/42_rotate.md). The distance is bits 4 to 0 of the VALUE of register rs2 (C1). -/

namespace Sys2Proof.Machine

/-- `rotl32(a, b[4:0])` (R67). -/
def rolOf (a b : Word) : Word := rotl32 a (distance b)

/-- `rotr32(a, b[4:0])` (R68, the spec's decision D22). -/
def rorOf (a b : Word) : Word := rotr32 a (distance b)

/-- ROL rd, rs1, rs2 (R67). -/
def execRol (rd rs1 rs2 : RegNum) (s : State) : Host.Outcome State Fault Refusal := binary rolOf rd rs1 rs2 s

/-- ROR rd, rs1, rs2 (R68). -/
def execRor (rd rs1 rs2 : RegNum) (s : State) : Host.Outcome State Fault Refusal := binary rorOf rd rs1 rs2 s

end Sys2Proof.Machine
end

