-- ==== Sys2Proof/Machine/Unary.lean ====
section
/-! DEFINITION. ABS (spec/43_unary.md). -/

namespace Sys2Proof.Machine

/-- `(a[31] = 1) ? -a : a`, with the one operand whose absolute value does not fit answering the parameter
`ABS_INT_MIN` (R69, the spec's decision D8: log 5). -/
def absOf (a : Word) : Word :=
  if a = 0x80000000#32 then Config.absIntMin else if a.getLsbD 31 then neg a else a

/-- ABS rd, rs1 (R69). The rs2 field is ignored and no second register is read (R42). -/
def execAbs (rd rs1 : RegNum) (s : State) : Host.Outcome State Fault Refusal := unary absOf rd rs1 s

end Sys2Proof.Machine
end

