-- ==== Sys2Proof/Machine/Fetch.lean ====
section
/-! DEFINITION. Instruction fetch (spec/20_memory.md R22 to R25). -/

namespace Sys2Proof.Machine

/-- What a fetch yields: a word, or the fault that ends the step (R22). -/
inductive Fetched where
  | word (inst : Word)
  | stopped (f : Fault)
deriving DecidableEq, Repr

/-- `inst = MemRead(pc, 4)` in byte order `e`, the checks in the order of R22: alignment of the pc, then backing of
its four bytes. The access is neither split nor rounded down (R25), and it changes nothing (R20). -/
def fetch (e : Endian) (s : State) : Fetched :=
  if s.pc.extractLsb' 0 2 ≠ 0#2 then .stopped (.fetchMisaligned s.pc)
  else
    match s.readWord e s.pc with
    | some inst => .word inst
    | none => .stopped (.fetchAccess s.pc)

end Sys2Proof.Machine
end

