-- ==== Sys2Proof/Machine/Cycle.lean ====
section
/-! DEFINITION. One step of the hart (spec/70_reset_and_hazards.md R103) with the open parameters `ENDIAN` and `BaseStep`
as arguments (spec/00_scope.md R7). -/

namespace Sys2Proof.Machine

/-- What a decoded word does: one of the ten runs, a word of another opcode goes to `BaseStep`, a reserved encoding
ends in `IllegalInstruction` (R40, R43, R70, R81). -/
def execDecoded (base : Word → State → Host.Outcome State Fault Refusal) (d : Decoded) (s : State) :
    Host.Outcome State Fault Refusal :=
  match d with
  | .instr i => exec i s
  | .base inst => base inst s
  | .reserved inst => raise (.illegalInstruction inst)

/-- One step: fetch, decode, execute. The first check that fails ends it (R85, R103). -/
def stepWith (e : Endian) (base : Word → State → Host.Outcome State Fault Refusal) (s : State) :
    Host.Outcome State Fault Refusal :=
  match fetch e s with
  | .word inst => execDecoded base (decode inst) s
  | .stopped f => raise f

/-- A state with an instruction word placed at the pc, everything else as it was. -/
def placeAtPc (e : Endian) (s : State) (inst : Word) : State := s.memWrite e s.pc 4 inst

end Sys2Proof.Machine
end

