-- ==== Sys2Proof/Machine/Step.lean ====
section
/-! DEFINITION. The step of the model and the placing of a word where it is fetched next. -/

namespace Sys2Proof.Machine

/-- One step with the spec's defaults: little-endian fetch (R23) and the refusing `BaseStep` (R70). -/
def step (s : State) : Host.Outcome State Fault Refusal := stepWith Config.endian baseStep s

/-- `s` with the row word `w` of `nbits` bits (all higher bits 0) stored at the pc, where step fetches next. It stands
for the load of a program from outside: log 3. -/
def State.withFetchWord (s : State) (nbits w : Nat) : State :=
  placeAtPc Config.endian s (BitVec.ofNat 32 (w % 2 ^ nbits))

end Sys2Proof.Machine
end

