-- ==== Sys2Proof/Machine/Assembler.lean ====
section
/-! DEFINITION. The assembly text of spec/30_encoding.md R48 to R51: printing an instruction in the two spellings the source
shows, and reading a line of text. It has no effect on the machine (the spec's decision D21). What the examples leave open
of the text is read strictly: log 12. -/

namespace Sys2Proof.Machine

/-! ## Printing -/

/-- The digit of a number below 10. -/
def digit (n : Nat) : Char := Char.ofNat (48 + n)

/-- A register number in decimal (R50). -/
def decimal (n : Nat) : List Char := if n < 10 then [digit n] else [digit (n / 10), digit (n % 10)]

/-- A register operand: `x` and the number (R50). -/
def regText (r : RegNum) : List Char := 'x' :: decimal r.toNat

/-- The operands, rd then rs1 then rs2, with a separator between them. ABS has two (R48, R49). -/
def operandText (separator : List Char) (i : Instr) : List Char :=
  regText i.dest ++ separator ++ regText i.src1 ++
    match i.src2 with
    | some r => separator ++ regText r
    | none => []

/-- The form the spec prints: lower case, no space after a comma, as in `andn x5,x6,x7` (R48). -/
def render (i : Instr) : List Char := i.mnemonic.toList ++ [' '] ++ operandText [','] i

/-- The form of the source's headings: upper case, a space after each comma, as in `ANDN x5, x6, x7` (R48, C3). -/
def renderHeading (i : Instr) : List Char :=
  i.mnemonic.toList.map Char.toUpper ++ [' '] ++ operandText [',', ' '] i

/-! ## Reading -/

/-- The pieces of a text between commas. -/
def splitCommas : List Char → List (List Char)
  | [] => [[]]
  | ',' :: cs => [] :: splitCommas cs
  | c :: cs =>
    match splitCommas cs with
    | [] => [[c]]
    | piece :: pieces => (c :: piece) :: pieces

/-- A text without its leading spaces. -/
def dropSpaces (cs : List Char) : List Char := cs.dropWhile (· == ' ')

/-- A text without its trailing spaces. -/
def trimEnd (cs : List Char) : List Char := (dropSpaces cs.reverse).reverse

/-- A decimal number: digits only, at least one, no leading zero (R50, log 12). -/
def readDecimal (cs : List Char) : Option Nat :=
  if cs = [] ∨ (cs.head? = some '0' ∧ cs ≠ ['0']) ∨ cs.any (fun c => !c.isDigit) then none
  else some (cs.foldl (fun n c => 10 * n + (c.toNat - 48)) 0)

/-- A register operand `x<number>`, with optional spaces before it (R48, R50). No other register name exists. -/
def readReg (cs : List Char) : Option Nat :=
  match dropSpaces cs with
  | 'x' :: ds => readDecimal ds
  | _ => none

/-- The numbers of all operands, none when one of them is no register operand. -/
def readRegs : List (List Char) → Option (List Nat)
  | [] => some []
  | piece :: pieces =>
    match readReg piece, readRegs pieces with
    | some n, some ns => some (n :: ns)
    | _, _ => none

/-- The mnemonic a text spells, in lower or in upper case (R48, C3). -/
def readMnemonic (cs : List Char) : Option String :=
  mnemonics.find? fun m => cs == m.toList || cs == m.toList.map Char.toUpper

/-- A line split into mnemonic and operands: the comment from `#` on is cut (D21), the mnemonic ends at the first
space, the operands are separated by commas (R48). -/
def readLine (line : List Char) : Option AsmLine :=
  let text := trimEnd (line.takeWhile (· != '#'))
  match readMnemonic (text.takeWhile (· != ' ')),
      readRegs (splitCommas (dropSpaces (text.dropWhile (· != ' ')))) with
  | some m, some ns => some { mnemonic := m, operands := ns }
  | _, _ => none

/-- The instruction a well-formed line stands for. There are no pseudo-instructions (R51). -/
def instrOfLine (l : AsmLine) : Option Instr :=
  if l.wellFormed then
    match l.operands.map (BitVec.ofNat 5) with
    | [rd, rs1, rs2] =>
      if l.mnemonic = "andn" then some (.andn rd rs1 rs2)
      else if l.mnemonic = "orn" then some (.orn rd rs1 rs2)
      else if l.mnemonic = "xnor" then some (.xnor rd rs1 rs2)
      else if l.mnemonic = "min" then some (.min rd rs1 rs2)
      else if l.mnemonic = "max" then some (.max rd rs1 rs2)
      else if l.mnemonic = "minu" then some (.minu rd rs1 rs2)
      else if l.mnemonic = "maxu" then some (.maxu rd rs1 rs2)
      else if l.mnemonic = "rol" then some (.rol rd rs1 rs2)
      else if l.mnemonic = "ror" then some (.ror rd rs1 rs2)
      else none
    | [rd, rs1] => if l.mnemonic = "abs" then some (.abs rd rs1) else none
    | _ => none
  else none

/-- The instruction a line of assembly text yields, none where it is not one of the ten (R48 to R51). -/
def assembleLine (line : List Char) : Option Instr :=
  match readLine line with
  | some l => instrOfLine l
  | none => none

/-- The word a line of assembly text yields: one line, one word (R51, R36). -/
def assembleWord (line : List Char) : Option Word := (assembleLine line).map encode

end Sys2Proof.Machine
end

