-- ==== Sys2Proof/Machine/Run.lean ====
section
/-! DEFINITION. The run and its end (spec/70_reset_and_hazards.md R104), with every parameter that spec/00_scope.md R7
leaves open as an argument. -/

namespace Sys2Proof.Machine

/-- `EndOfRun` as the spec recommends it: a program of `n` words at base `b` is over when `pc = b + 4n` modulo 2^32
(R104, the spec's decision D17: log 9). -/
def endOfRun (b : Word) (n : Nat) (s : State) : Bool := s.pc == b + BitVec.ofNat 32 (4 * n)

/-- How a run of at most some number of steps stands. -/
inductive RunResult where
  /-- the predicate `EndOfRun` holds of this state: the run is over -/
  | over (s : State)
  /-- the steps are used up and the run is not over -/
  | running (s : State)
  /-- a step faulted: terminal and not final (R84) -/
  | faulted (f : Fault)
  /-- a step was refused: kept for the whole run and never final (R70) -/
  | refused (r : Refusal)
deriving DecidableEq, Repr

/-- At most `k` steps with the parameters of a step (`ENDIAN`, `BaseStep`) and the open parameter `EndOfRun` (`fin`)
as arguments (R7). The predicate is judged before each fetch, so the model does not fetch where the run is over (R104).
`BaseStep` need not keep the frame conditions of R70 here: a statement that needs them takes them as a premise. -/
def runWith (e : Endian) (base : Word → State → Host.Outcome State Fault Refusal) (fin : State → Bool) :
    Nat → State → RunResult
  | 0, s => if fin s then .over s else .running s
  | k + 1, s =>
    if fin s then .over s
    else
      match stepWith e base s with
      | .next t => runWith e base fin k t
      | .fault f => .faulted f
      | .refused r => .refused r

/-- The run of the model: its steps are `step`, with the spec's defaults for `ENDIAN` (R23) and `BaseStep` (R70), logs 4
and 6. `EndOfRun` has no default and stays an argument. -/
def runUntil (fin : State → Bool) (k : Nat) (s : State) : RunResult := runWith Config.endian baseStep fin k s

/-- A whole run under every parameter that R7 leaves open: the launch registers (R19), `RESET_PC` (R101) and `MemMap`
(R21) make the launch state (R100), `BaseStep` (R70), `EndOfRun` (R104) and the byte order (R23) the run from it. -/
def runFromLaunch (e : Endian) (base : Word → State → Host.Outcome State Fault Refusal) (fin : State → Bool)
    (x : Vector Word 31) (resetPc : Word) (memMap : Memory) (k : Nat) : RunResult :=
  runWith e base fin k (State.launch x resetPc memMap)

end Sys2Proof.Machine
end

