-- ==== Sys2Proof/Safety.lean ====
section
/-! DEFINITION. The terms in which claims are stated: what it is for an instruction to complete, for a word to stand in
memory, for a state to be in good order, and for a step to be safe. -/

namespace Sys2Proof.Machine

/-- The instruction completes from `s` with result `v`: rd reads as `v` (as zero when rd is x0, R11), every other
register reads as before (R12), the pc has advanced by 4 modulo 2^32 (R15) and memory is as it was (R72). State holds
nothing else (R17), so this says all of the next state. -/
def CompletesWriting (i : Instr) (s : State) (v : Word) : Prop :=
  ∃ t, exec i s = .next t ∧
    t.readReg i.dest = (if i.dest = 0#5 then 0#32 else v) ∧
    (∀ r, r ≠ i.dest → t.readReg r = s.readReg r) ∧
    t.pc = s.pc + 4#32 ∧
    t.mem = s.mem

/-- Exactly the words with `(inst & 0xFE00707F) = m` decode to the instruction `mk`, with the register numbers of
their fields (R44). -/
def EncodedAs (m : Word) (mk : RegNum → RegNum → RegNum → Instr) : Prop :=
  ∀ w : Word, (w &&& 0xFE00707F#32 = m ↔ decode w = .instr (mk (rdOf w) (rs1Of w) (rs2Of w)))

/-- With `a` in rs1 and `b` in rs2, the instruction completes with result `v`, whatever its registers are and whether
or not rd is one of them: the operands are the values held before (R13). -/
def Yields (mk : RegNum → RegNum → RegNum → Instr) (a b v : Word) : Prop :=
  ∀ (s : State) (rd rs1 rs2 : RegNum), s.readReg rs1 = a → s.readReg rs2 = b → CompletesWriting (mk rd rs1 rs2) s v

/-- With `a` in rs1, ABS completes with result `v` (R69). -/
def AbsYields (a v : Word) : Prop :=
  ∀ (s : State) (rd rs1 : RegNum), s.readReg rs1 = a → CompletesWriting (.abs rd rs1) s v

/-- The ten pairs (funct7, funct3) of the opcode map (R39). -/
def tenPairs : List (Nat × Nat) :=
  [(0, 0), (0, 1), (0, 2), (1, 0), (1, 1), (1, 2), (1, 3), (2, 0), (2, 1), (3, 0)]

/-- The pair (funct7, funct3) of a word (R35). -/
def pairOf (w : Word) : Nat × Nat := ((funct7Of w).toNat, (funct3Of w).toNat)

/-- The pc is a multiple of 4 (R24). -/
def PcAligned (s : State) : Prop := s.pc.extractLsb' 0 2 = 0#2

/-- The four bytes from an address on are backed and are those of the word, least significant byte first (R21, R23). -/
def HoldsWord (s : State) (addr w : Word) : Prop :=
  s.readByte addr = some (w.extractLsb' 0 8) ∧ s.readByte (addr + 1#32) = some (w.extractLsb' 8 8) ∧
    s.readByte (addr + 2#32) = some (w.extractLsb' 16 8) ∧ s.readByte (addr + 3#32) = some (w.extractLsb' 24 8)

/-- One of the four bytes from an address on is not backed (R22). -/
def SomeByteUnbacked (s : State) (addr : Word) : Prop :=
  s.readByte addr = none ∨ s.readByte (addr + 1#32) = none ∨
    s.readByte (addr + 2#32) = none ∨ s.readByte (addr + 3#32) = none

/-- The state is in good order: the pc is a multiple of 4 and memory has its canonical form. -/
def GoodOrder (s : State) : Prop := PcAligned s ∧ Memory.wf s.mem = true

/-- A step is safe when it answers a next state, neither a fault nor a refusal (R80). -/
def SafeStep (s : State) : Prop := ∃ t, step s = .next t

/-- From the pc on stand `n` words of RVX10, one after the other (R71). -/
def NextWordsAreRvx10 (s : State) (n : Nat) : Prop :=
  ∀ k, k < n → ∃ w i, HoldsWord s (s.pc + BitVec.ofNat 32 (4 * k)) w ∧ decode w = .instr i

end Sys2Proof.Machine
end

