-- ==== Sys2Proof/Certificates/Slice0/Obligations.lean ====
section
/-! DEFINITION. The statements for the provers. "The spec's own decision D<n>" in a docstring names a row of
spec/92_eei_decisions.md: a clause that rests on it is the spec's choice and not its source's. -/

open Sys2Proof Sys2Proof.Machine

/-! ## Encoding and decoding -/

/-- R35: the six fields tile the word, each at its bit positions and of its width. -/
def Obligations.FieldsTileTheWord : Prop :=
  ∀ w : Word,
    w = funct7Of w ++ rs2Of w ++ rs1Of w ++ funct3Of w ++ rdOf w ++ opcodeOf w ∧
    (funct7Of w).toNat = w.toNat / 2 ^ 25 ∧ (rs2Of w).toNat = w.toNat / 2 ^ 20 % 2 ^ 5 ∧
    (rs1Of w).toNat = w.toNat / 2 ^ 15 % 2 ^ 5 ∧ (funct3Of w).toNat = w.toNat / 2 ^ 12 % 2 ^ 3 ∧
    (rdOf w).toNat = w.toNat / 2 ^ 7 % 2 ^ 5 ∧ (opcodeOf w).toNat = w.toNat % 2 ^ 7

/-- R36: the word is the sum of its fields, each shifted to its place, and decoding the fields is the inverse. -/
def Obligations.WordIsTheSumOfItsFields : Prop :=
  ∀ (funct7 : BitVec 7) (rs2 rs1 : RegNum) (funct3 : BitVec 3) (rd : RegNum),
    let w := encodeR funct7 rs2 rs1 funct3 rd
    w.toNat = funct7.toNat * 2 ^ 25 + rs2.toNat * 2 ^ 20 + rs1.toNat * 2 ^ 15 + funct3.toNat * 2 ^ 12 +
      rd.toNat * 2 ^ 7 + 0x0B ∧
    w = (funct7.setWidth 32 <<< 25) ||| (rs2.setWidth 32 <<< 20) ||| (rs1.setWidth 32 <<< 15) |||
      (funct3.setWidth 32 <<< 12) ||| (rd.setWidth 32 <<< 7) ||| 0x0B#32 ∧
    funct7Of w = funct7 ∧ rs2Of w = rs2 ∧ rs1Of w = rs1 ∧ funct3Of w = funct3 ∧ rdOf w = rd ∧
    opcodeOf w = 0b0001011#7

/-- R37 and R39: every instruction has the opcode 0x0B, under it the ten pairs select the ten instructions, and no
other pair selects one. -/
def Obligations.OpcodeMapSelectsTheTen : Prop :=
  (∀ w i, decode w = .instr i → opcodeOf w = 0b0001011#7 ∧ pairOf w ∈ tenPairs) ∧
  (∀ i, opcodeOf (encode i) = 0b0001011#7) ∧
  ∀ w, opcodeOf w = 0b0001011#7 →
    (pairOf w = (0, 0) → decode w = .instr (.andn (rdOf w) (rs1Of w) (rs2Of w))) ∧
    (pairOf w = (0, 1) → decode w = .instr (.orn (rdOf w) (rs1Of w) (rs2Of w))) ∧
    (pairOf w = (0, 2) → decode w = .instr (.xnor (rdOf w) (rs1Of w) (rs2Of w))) ∧
    (pairOf w = (1, 0) → decode w = .instr (.min (rdOf w) (rs1Of w) (rs2Of w))) ∧
    (pairOf w = (1, 1) → decode w = .instr (.max (rdOf w) (rs1Of w) (rs2Of w))) ∧
    (pairOf w = (1, 2) → decode w = .instr (.minu (rdOf w) (rs1Of w) (rs2Of w))) ∧
    (pairOf w = (1, 3) → decode w = .instr (.maxu (rdOf w) (rs1Of w) (rs2Of w))) ∧
    (pairOf w = (2, 0) → decode w = .instr (.rol (rdOf w) (rs1Of w) (rs2Of w))) ∧
    (pairOf w = (2, 1) → decode w = .instr (.ror (rdOf w) (rs1Of w) (rs2Of w))) ∧
    (pairOf w = (3, 0) → decode w = .instr (.abs (rdOf w) (rs1Of w)))

/-- Section 2 of the encoding file (the order of decoding is the spec's own decisions D1 and D7): every word has exactly
one of three outcomes, and the all-zero and all-ones words go to `BaseStep`. -/
def Obligations.DecodeHasThreeOutcomes : Prop :=
  (∀ w, (decode w = .base w ↔ opcodeOf w ≠ 0b0001011#7) ∧
    (decode w = .reserved w ↔ opcodeOf w = 0b0001011#7 ∧ pairOf w ∉ tenPairs) ∧
    ((∃ i, decode w = .instr i) ↔ opcodeOf w = 0b0001011#7 ∧ pairOf w ∈ tenPairs)) ∧
  decode 0x00000000#32 = .base 0x00000000#32 ∧ decode 0xFFFFFFFF#32 = .base 0xFFFFFFFF#32

/-- Section 4 of the encoding file (the spec's own decision D7): the reserved encodings, by their ranges, and how many
pairs they are. -/
def Obligations.ReservedEncodingsByRange : Prop :=
  (∀ w, decode w = .reserved w ↔ opcodeOf w = 0b0001011#7 ∧
    ((funct7Of w = 0#7 ∧ 3 ≤ (funct3Of w).toNat) ∨ (funct7Of w = 1#7 ∧ 4 ≤ (funct3Of w).toNat) ∨
      (funct7Of w = 2#7 ∧ 2 ≤ (funct3Of w).toNat) ∨ (funct7Of w = 3#7 ∧ 1 ≤ (funct3Of w).toNat) ∨
      4 ≤ (funct7Of w).toNat)) ∧
  ((List.product (List.range 128) (List.range 8)).filter fun p =>
    (opcodeMap (BitVec.ofNat 7 p.1) (BitVec.ofNat 3 p.2)).isNone).length = 1014

/-- R42: a word with the codes of ABS is an ABS whatever its rs2 field, the encoder puts 00000 there, ABS reads no
register but rs1 and writes none but rd. -/
def Obligations.AbsIgnoresItsRs2Field : Prop :=
  (∀ w, opcodeOf w = 0b0001011#7 → funct7Of w = 0b0000011#7 → funct3Of w = 0b000#3 →
    decode w = .instr (.abs (rdOf w) (rs1Of w))) ∧
  (∀ rd rs1, rs2Of (encode (.abs rd rs1)) = 0b00000#5) ∧
  (∀ (s : State) (rd rs1 r : RegNum) (v : Word), r ≠ rs1 → ∃ t t', exec (.abs rd rs1) s = .next t ∧
    exec (.abs rd rs1) (s.writeReg r v) = .next t' ∧ t'.readReg rd = t.readReg rd) ∧
  (∀ (s t : State) (rd rs1 : RegNum), exec (.abs rd rs1) s = .next t → ∀ r, r ≠ rd → t.readReg r = s.readReg r)

/-- Section 3 of the encoding file: the match and mask table and the decoder agree on every word, so no word matches two
rows, and a word matches none exactly when it is no RVX10 instruction. -/
def Obligations.MatchMaskAgreesWithDecode : Prop :=
  ∀ w, matchingRows w = match decode w with
    | .instr i => [i.mnemonic]
    | _ => []

/-- Section 4 of the encoding file, round trip: every instruction, with every register number in every operand, is read
back from its word. -/
def Obligations.DecodeInvertsEncode : Prop :=
  ∀ i : Instr, i.wellFormed = true ∧ decode (encode i) = .instr i

/-- Section 4 of the encoding file, round trip the other way: a word that decodes is encoded back, except that ABS comes
back with its rs2 field cleared, so it comes back itself exactly when it is canonical. -/
def Obligations.EncodeInvertsDecode : Prop :=
  ∀ w i, decode w = .instr i →
    (funct7Of w ≠ 0b0000011#7 → encode i = w) ∧
    (funct7Of w = 0b0000011#7 → encode i = w &&& 0xFE0FFFFF#32 ∧ (encode i = w ↔ rs2Of w = 0b00000#5))

/-- Words of spec/95_test_vectors.md sections 1 and 2.2: each of the ten worked encodings both ways, two non-canonical ABS
words, reserved words and words of another opcode. -/
def Obligations.WorkedEncodings : Prop :=
  (∀ p ∈ [(0x0073028B#32, Instr.andn 5 6 7), (0x0073128B#32, .orn 5 6 7), (0x0073228B#32, .xnor 5 6 7),
      (0x02C5850B#32, .min 10 11 12), (0x02C5950B#32, .max 10 11 12), (0x02C5A50B#32, .minu 10 11 12),
      (0x02A4B40B#32, .maxu 8 9 10), (0x0518078B#32, .rol 15 16 17), (0x0518178B#32, .ror 15 16 17),
      (0x060A8A0B#32, .abs 20 21)],
    decode p.1 = .instr p.2 ∧ encode p.2 = p.1) ∧
  (∀ w ∈ [0x06FA8A0B#32, 0x07FA8A0B#32], decode w = .instr (.abs 20 21)) ∧
  (∀ w ∈ [0x0000300B#32, 0x0200400B#32, 0x0400200B#32, 0x0600100B#32, 0x0800000B#32, 0x4000000B#32, 0xFE00000B#32],
    decode w = .reserved w) ∧
  (∀ w ∈ [0x00000013#32, 0x0073022B#32], decode w = .base w)

/-! ## Assembly text -/

/-- R48: a line with the mnemonic in either case, the operands in the order rd, rs1, rs2 and any number of spaces after
the commas is read as its instruction, and the printed form is lower case without spaces. -/
def Obligations.AssemblerReadsBothSpellings : Prop :=
  (∀ (i : Instr) (k : Nat),
    assembleLine (i.mnemonic.toList ++ [' '] ++ operandText (',' :: List.replicate k ' ') i) = some i ∧
    assembleLine (i.mnemonic.toList.map Char.toUpper ++ [' '] ++ operandText (',' :: List.replicate k ' ') i) = some i) ∧
  (∀ i, render i = i.mnemonic.toList ++ [' '] ++ operandText [','] i) ∧
  (∀ rd rs1 rs2, operandText [','] (.andn rd rs1 rs2) =
    regText rd ++ [','] ++ regText rs1 ++ [','] ++ regText rs2) ∧
  assembleWord "andn x5,x6,x7".toList = some 0x0073028B#32 ∧ assembleWord "ANDN x5, x6, x7".toList = some 0x0073028B#32

/-- R49: ABS is written with two operands and its word has the rs2 field 00000, three operands are no ABS, and no line
of text yields a non-canonical word. -/
def Obligations.AbsIsWrittenWithTwoOperands : Prop :=
  (∀ rd rs1, assembleWord ("abs ".toList ++ regText rd ++ [','] ++ regText rs1) = some (encode (.abs rd rs1)) ∧
    rs2Of (encode (.abs rd rs1)) = 0b00000#5) ∧
  (∀ rd rs1 rs2, assembleLine ("abs ".toList ++ regText rd ++ [','] ++ regText rs1 ++ [','] ++ regText rs2) = none) ∧
  (∀ line w, assembleWord line = some w → isCanonical w = true)

/-! ## State at launch -/

/-- The state after reset. Only x0 reading as zero is the spec's. The other values are the model's choices: x1 to x31
(log 1), the pc (log 2), no byte backed (log 3). -/
def Obligations.StateAfterReset : Prop :=
  State.reset.readReg 0 = 0#32 ∧ (∀ r, State.reset.readReg r = Config.resetReg) ∧
  State.reset.pc = Config.resetPc ∧ ∀ a, State.reset.readByte a = none

/-- The launch state takes the open parameters as they are given: the registers x1 to x31, `RESET_PC`, `MemMap` (the
spec's own decision D14), and x0 reads as zero in all of them. -/
def Obligations.LaunchTakesTheParameters : Prop :=
  ∀ (x : Vector Word 31) (resetPc : Word) (memMap : Memory),
    (State.launch x resetPc memMap).readReg 0 = 0#32 ∧
    (∀ (k : Nat) (h : k < 31), (State.launch x resetPc memMap).readReg (BitVec.ofNat 5 (k + 1)) = x[k]) ∧
    (State.launch x resetPc memMap).pc = resetPc ∧
    ∀ a : Word, (State.launch x resetPc memMap).readByte a = Memory.read memMap a.toNat

/-- R11: x0 reads as zero in every state, a write of it is ignored, and an instruction whose rd is x0 changes no register
and only advances the pc, without a fault. The width and the wrap of the pc are the spec's own decision D3. -/
def Obligations.X0IsHardwiredToZero : Prop :=
  (∀ s : State, s.readReg 0 = 0#32) ∧ (∀ (s : State) (v : Word), s.writeReg 0 v = s) ∧
  ∀ (i : Instr) (s : State), i.dest = 0#5 → exec i s = .next { s with pc := s.pc + 4#32 }

/-! ## The ten instructions -/

/-- R60: ANDN, its encoding, its result whole and bit by bit, its corner cases and its example. The advance of the pc is
R60's own line, the width and the wrap of the pc are the spec's own decision D3. -/
def Obligations.AndnResult : Prop :=
  EncodedAs 0x0000000B#32 .andn ∧
  (∀ (s : State) (rd rs1 rs2 : RegNum), CompletesWriting (.andn rd rs1 rs2) s (s.readReg rs1 &&& ~~~s.readReg rs2)) ∧
  (∀ a b : Word, ∃ v, Yields .andn a b v ∧
    ∀ i, i < 32 → (v.getLsbD i = true ↔ a.getLsbD i = true ∧ b.getLsbD i = false)) ∧
  (∀ a, Yields .andn a 0x00000000#32 a ∧ Yields .andn a 0xFFFFFFFF#32 0#32 ∧ Yields .andn a a 0#32 ∧
    Yields .andn 0#32 a 0#32) ∧
  (∃ s, exec (.andn 1 2 3) s ≠ exec (.andn 1 3 2) s) ∧
  encode (.andn 5 6 7) = 0x0073028B#32 ∧ Yields .andn 0xF0F0A5A5#32 0x0F0FFFFF#32 0xF0F00000#32

/-- Section ORN of the bitwise file (the operation is the spec's own decision D22): its encoding, its result whole and bit
by bit, its corner cases and its examples. -/
def Obligations.OrnResult : Prop :=
  EncodedAs 0x0000100B#32 .orn ∧
  (∀ (s : State) (rd rs1 rs2 : RegNum), CompletesWriting (.orn rd rs1 rs2) s (s.readReg rs1 ||| ~~~s.readReg rs2)) ∧
  (∀ a b : Word, ∃ v, Yields .orn a b v ∧
    ∀ i, i < 32 → (v.getLsbD i = false ↔ a.getLsbD i = false ∧ b.getLsbD i = true)) ∧
  (∀ a, Yields .orn a 0x00000000#32 0xFFFFFFFF#32 ∧ Yields .orn a 0xFFFFFFFF#32 a ∧ Yields .orn a a 0xFFFFFFFF#32 ∧
    Yields .orn 0#32 a (~~~a)) ∧
  (∃ s, exec (.orn 1 2 3) s ≠ exec (.orn 1 3 2) s) ∧
  encode (.orn 5 6 7) = 0x0073128B#32 ∧ Yields .orn 0x12345678#32 0xFFFFFFFF#32 0x12345678#32 ∧
  Yields .orn 0x00000000#32 0x80000000#32 0x7FFFFFFF#32

/-- Section XNOR of the bitwise file (the operation is the spec's own decision D22): its encoding, its result whole and bit
by bit, its corner cases and its examples. -/
def Obligations.XnorResult : Prop :=
  EncodedAs 0x0000200B#32 .xnor ∧
  (∀ (s : State) (rd rs1 rs2 : RegNum), CompletesWriting (.xnor rd rs1 rs2) s (~~~(s.readReg rs1 ^^^ s.readReg rs2))) ∧
  (∀ a b : Word, ∃ v, Yields .xnor a b v ∧ v = a ^^^ ~~~b ∧ v = ~~~a ^^^ b ∧
    ∀ i, i < 32 → (v.getLsbD i = true ↔ a.getLsbD i = b.getLsbD i)) ∧
  (∀ a, Yields .xnor a 0x00000000#32 (~~~a) ∧ Yields .xnor a 0xFFFFFFFF#32 a ∧ Yields .xnor a a 0xFFFFFFFF#32 ∧
    Yields .xnor 0#32 a (~~~a)) ∧
  (∀ s rd rs1 rs2, exec (.xnor rd rs1 rs2) s = exec (.xnor rd rs2 rs1) s) ∧
  encode (.xnor 5 6 7) = 0x0073228B#32 ∧ Yields .xnor 0xF0F0A5A5#32 0x0F0FFFFF#32 0x0000A5A5#32 ∧
  Yields .xnor 0x12345678#32 0x00000000#32 0xEDCBA987#32

/-- R63: MIN, its encoding, its result by the signed comparison, its corner cases and its examples. That signed means two's
complement is marked general knowledge in the scope file (G2), the width and the wrap of the pc are the spec's own
decision D3. -/
def Obligations.MinResult : Prop :=
  EncodedAs 0x0200000B#32 .min ∧
  (∀ (s : State) (rd rs1 rs2 : RegNum), CompletesWriting (.min rd rs1 rs2) s
    (if signed (s.readReg rs1) < signed (s.readReg rs2) then s.readReg rs1 else s.readReg rs2)) ∧
  (∀ a, Yields .min a a a ∧ Yields .min a 0x80000000#32 0x80000000#32 ∧ Yields .min 0x80000000#32 a 0x80000000#32 ∧
    Yields .min a 0x7FFFFFFF#32 a ∧ Yields .min 0x7FFFFFFF#32 a a ∧
    Yields .min a 0#32 (if signed a < 0 then a else 0#32)) ∧
  signed 0xFFFFFFFF#32 = -1 ∧
  Yields .min 0xFFFFFFFF#32 0x00000000#32 0xFFFFFFFF#32 ∧ Yields .min 0xFFFFFFFF#32 0x00000001#32 0xFFFFFFFF#32 ∧
  (∀ s rd rs1 rs2, exec (.min rd rs1 rs2) s = exec (.min rd rs2 rs1) s) ∧
  encode (.min 10 11 12) = 0x02C5850B#32 ∧ Yields .min 0x7FFFFFFF#32 0x80000000#32 0x80000000#32

/-- Section MAX of the min/max file (the operation is the spec's own decision D22): its encoding, its result by the signed
comparison, its corner cases and its examples. -/
def Obligations.MaxResult : Prop :=
  EncodedAs 0x0200100B#32 .max ∧
  (∀ (s : State) (rd rs1 rs2 : RegNum), CompletesWriting (.max rd rs1 rs2) s
    (if signed (s.readReg rs2) < signed (s.readReg rs1) then s.readReg rs1 else s.readReg rs2)) ∧
  (∀ a, Yields .max a a a ∧ Yields .max a 0x7FFFFFFF#32 0x7FFFFFFF#32 ∧ Yields .max 0x7FFFFFFF#32 a 0x7FFFFFFF#32 ∧
    Yields .max a 0x80000000#32 a ∧ Yields .max 0x80000000#32 a a ∧
    Yields .max a 0#32 (if 0 < signed a then a else 0#32)) ∧
  (∀ s rd rs1 rs2, exec (.max rd rs1 rs2) s = exec (.max rd rs2 rs1) s) ∧
  encode (.max 10 11 12) = 0x02C5950B#32 ∧ Yields .max 0xFFFFFFFF#32 0x00000001#32 0x00000001#32 ∧
  Yields .max 0x80000000#32 0x7FFFFFFF#32 0x7FFFFFFF#32

/-- Section MINU of the min/max file (the operation is the spec's own decision D22): its encoding, its result by the
unsigned comparison, its corner cases and its example, and when it differs from MIN. -/
def Obligations.MinuResult : Prop :=
  EncodedAs 0x0200200B#32 .minu ∧
  (∀ (s : State) (rd rs1 rs2 : RegNum), CompletesWriting (.minu rd rs1 rs2) s
    (if (s.readReg rs1).toNat < (s.readReg rs2).toNat then s.readReg rs1 else s.readReg rs2)) ∧
  (∀ a, Yields .minu a a a ∧ Yields .minu a 0#32 0#32 ∧ Yields .minu 0#32 a 0#32 ∧
    Yields .minu a 0xFFFFFFFF#32 a ∧ Yields .minu 0xFFFFFFFF#32 a a) ∧
  (∀ a b, minuOf a b = minOf a b ↔ a.getLsbD 31 = b.getLsbD 31) ∧
  (∀ s rd rs1 rs2, exec (.minu rd rs1 rs2) s = exec (.minu rd rs2 rs1) s) ∧
  encode (.minu 10 11 12) = 0x02C5A50B#32 ∧ Yields .minu 0xFFFFFFFF#32 0x00000001#32 0x00000001#32 ∧
  Yields .minu 0x80000000#32 0x7FFFFFFF#32 0x7FFFFFFF#32 ∧ Yields .min 0x80000000#32 0x7FFFFFFF#32 0x80000000#32

/-- R66: MAXU, its encoding, its result by the unsigned comparison, its corner cases and its examples. The width and the
wrap of the pc are the spec's own decision D3. -/
def Obligations.MaxuResult : Prop :=
  EncodedAs 0x0200300B#32 .maxu ∧
  (∀ (s : State) (rd rs1 rs2 : RegNum), CompletesWriting (.maxu rd rs1 rs2) s
    (if (s.readReg rs2).toNat < (s.readReg rs1).toNat then s.readReg rs1 else s.readReg rs2)) ∧
  (∀ a, Yields .maxu a a a ∧ Yields .maxu a 0#32 a ∧ Yields .maxu 0#32 a a ∧
    Yields .maxu a 0xFFFFFFFF#32 0xFFFFFFFF#32 ∧ Yields .maxu 0xFFFFFFFF#32 a 0xFFFFFFFF#32) ∧
  (∀ s rd rs1 rs2, exec (.maxu rd rs1 rs2) s = exec (.maxu rd rs2 rs1) s) ∧
  encode (.maxu 8 9 10) = 0x02A4B40B#32 ∧ Yields .maxu 0xFFFFFFFF#32 0x00000001#32 0xFFFFFFFF#32 ∧
  Yields .maxu 0x12345678#32 0x00000000#32 0x12345678#32 ∧
  Yields .maxu 0x80000000#32 0x7FFFFFFF#32 0x80000000#32 ∧ Yields .max 0x80000000#32 0x7FFFFFFF#32 0x7FFFFFFF#32

/-- R67: ROL, its encoding, its result by the formula and bit by bit, its corner cases and its examples. The distance is
bits 4 to 0 of the value of register rs2. The width and the wrap of the pc are the spec's own decision D3. -/
def Obligations.RolResult : Prop :=
  EncodedAs 0x0400000B#32 .rol ∧
  (∀ (s : State) (rd rs1 rs2 : RegNum), CompletesWriting (.rol rd rs1 rs2) s
    (rotl32 (s.readReg rs1) ((s.readReg rs2).extractLsb' 0 5).toNat)) ∧
  (∀ a b : Word, ∃ v, Yields .rol a b v ∧ ∀ d, d = (b.extractLsb' 0 5).toNat →
    (1 ≤ d → v = (a <<< d ||| a >>> (32 - d))) ∧ (d = 0 → v = a) ∧
    ∀ i, i < 32 → v.getLsbD ((i + d) % 32) = a.getLsbD i) ∧
  (∀ a, Yields .rol a 0#32 a ∧ Yields .rol a 32#32 a ∧ Yields .rol a 64#32 a ∧
    (∃ v, Yields .rol a 33#32 v ∧ Yields .rol a 1#32 v) ∧
    (∃ v, Yields .rol a 0xFFFFFFFF#32 v ∧ Yields .rol a 31#32 v ∧ Yields .ror a 1#32 v)) ∧
  (∀ b, Yields .rol 0#32 b 0#32 ∧ Yields .rol 0xFFFFFFFF#32 b 0xFFFFFFFF#32) ∧
  encode (.rol 15 16 17) = 0x0518078B#32 ∧ Yields .rol 0x80000001#32 1#32 0x00000003#32 ∧
  Yields .rol 0x12345678#32 4#32 0x23456781#32

/-- Section ROR of the rotation file (the direction is the spec's own decision D22): its encoding, its result by the
formula and bit by bit, its corner cases and its examples. -/
def Obligations.RorResult : Prop :=
  EncodedAs 0x0400100B#32 .ror ∧
  (∀ (s : State) (rd rs1 rs2 : RegNum), CompletesWriting (.ror rd rs1 rs2) s
    (rotr32 (s.readReg rs1) ((s.readReg rs2).extractLsb' 0 5).toNat)) ∧
  (∀ a b : Word, ∃ v, Yields .ror a b v ∧ ∀ d, d = (b.extractLsb' 0 5).toNat →
    (1 ≤ d → v = (a >>> d ||| a <<< (32 - d))) ∧ (d = 0 → v = a) ∧
    ∀ i, i < 32 → v.getLsbD i = a.getLsbD ((i + d) % 32)) ∧
  (∀ a, Yields .ror a 0#32 a ∧ Yields .ror a 32#32 a ∧ (∃ v, Yields .ror a 33#32 v ∧ Yields .ror a 1#32 v) ∧
    (∃ v, Yields .ror a 16#32 v ∧ Yields .rol a 16#32 v)) ∧
  (∀ b, Yields .ror 0#32 b 0#32 ∧ Yields .ror 0xFFFFFFFF#32 b 0xFFFFFFFF#32) ∧
  encode (.ror 15 16 17) = 0x0518178B#32 ∧ Yields .ror 0x80000001#32 1#32 0xC0000000#32 ∧
  Yields .ror 0x12345678#32 4#32 0x81234567#32

/-- The unary file: ABS, its encoding with the ignored rs2 field, its result, its corner cases and its examples. The
result on 0x80000000 is the spec's own decision D8 (log 5). -/
def Obligations.AbsResult : Prop :=
  (∀ w : Word, (w &&& 0xFE00707F#32 = 0x0600000B#32 ↔ decode w = .instr (.abs (rdOf w) (rs1Of w)))) ∧
  (∀ (s : State) (rd rs1 : RegNum), CompletesWriting (.abs rd rs1) s
    (if (s.readReg rs1).getLsbD 31 then ~~~s.readReg rs1 + 1#32 else s.readReg rs1)) ∧
  (∀ a, a ≠ 0x80000000#32 → ∃ v, AbsYields a v ∧ signed v = |signed a|) ∧
  AbsYields 0x80000000#32 Config.absIntMin ∧ Config.absIntMin = 0x80000000#32 ∧
  (∀ a, a.getLsbD 31 = false → AbsYields a a) ∧ AbsYields 0x00000000#32 0x00000000#32 ∧
  AbsYields 0x7FFFFFFF#32 0x7FFFFFFF#32 ∧ AbsYields 0xFFFFFFFF#32 0x00000001#32 ∧
  AbsYields 0x80000001#32 0x7FFFFFFF#32 ∧ AbsYields 0xFFFFFFFB#32 0x00000005#32 ∧
  (∃ a, ∀ b v, AbsYields b v → (v.getLsbD 31 = true ↔ b = a)) ∧
  encode (.abs 20 21) = 0x060A8A0B#32 ∧ decode 0x06FA8A0B#32 = decode 0x060A8A0B#32

/-! ## All instructions at once -/

/-- Section 1 of the exceptions file: none of the ten has a fault of its own, each completes from every state. -/
def Obligations.EveryInstructionCompletes : Prop :=
  ∀ (i : Instr) (s : State), ∃ t, exec i s = .next t ∧ CompletesWriting i s (t.readReg i.dest)

/-- The frame of the ten (section 3 of the reset file, the step): every register but rd is unchanged, every byte of
memory is unchanged, and the pc has advanced by 4. -/
def Obligations.OnlyDestinationAndPcChange : Prop :=
  ∀ (i : Instr) (s t : State), exec i s = .next t →
    (∀ r, r ≠ i.dest → t.readReg r = s.readReg r) ∧ (∀ a, t.readByte a = s.readByte a) ∧ t.mem = s.mem ∧
    t.pc = s.pc + 4#32

/-- Section 1 of the state file, which registers an instruction reads: two states that agree on its source registers
give the same result, so ABS depends on no second register and none depends on the pc or on memory. -/
def Obligations.ResultDependsOnSourcesOnly : Prop :=
  ∀ (i : Instr) (s s' t t' : State), s.readReg i.src1 = s'.readReg i.src1 →
    (∀ r, i.src2 = some r → s.readReg r = s'.readReg r) →
    exec i s = .next t → exec i s' = .next t' → t.readReg i.dest = t'.readReg i.dest

/-- Encoding notes in the rotation file: the result of a rotation does not depend on bits 31 to 5 of the register that
holds the distance. -/
def Obligations.RotationUsesFiveBitsOfRs2 : Prop :=
  ∀ (mk : RegNum → RegNum → RegNum → Instr), (mk = .rol ∨ mk = .ror) →
    ∀ (s s' t t' : State) (rd rs1 rs2 : RegNum), s.readReg rs1 = s'.readReg rs1 →
      (s.readReg rs2).extractLsb' 0 5 = (s'.readReg rs2).extractLsb' 0 5 →
      exec (mk rd rs1 rs2) s = .next t → exec (mk rd rs1 rs2) s' = .next t' → t.readReg rd = t'.readReg rd

/-- Section 3 of the base boundary file: an instruction neither reads nor writes memory, so with any other memory it does
the same and leaves that memory as it is. -/
def Obligations.InstructionsIgnoreMemory : Prop :=
  ∀ (i : Instr) (s t : State) (m : Memory), exec i s = .next t →
    exec i { s with mem := m } = .next { t with mem := m }

/-- Section 2 of the state file (the advance of the pc is the spec's own decision D3): modulo 2^32, with the wrap at the
top of the space, and an aligned pc stays aligned. -/
def Obligations.PcAdvancesByFour : Prop :=
  ∀ (i : Instr) (s t : State), exec i s = .next t →
    t.pc.toNat = (s.pc.toNat + 4) % 2 ^ 32 ∧ (s.pc = 0xFFFFFFFC#32 → t.pc = 0x00000000#32) ∧
    (PcAligned s → PcAligned t)

/-! ## Fetch and step -/

/-- A step runs the decoded instruction: when the four bytes at an aligned pc decode to an instruction, the step is that
instruction's effect and nothing else. That the bytes stand little-endian is the spec's own decision D4 (log 4). -/
def Obligations.StepRunsTheDecodedInstruction : Prop :=
  ∀ (s : State) (w : Word) (i : Instr), PcAligned s → HoldsWord s s.pc w → decode w = .instr i → i.wellFormed = true →
    step s = exec i s

/-- The faults and their order (section 3 of the exceptions file, the spec's own decisions D5, D6, D7, D11): alignment,
then backing, then decoding, and each outcome carries the pc or the word (log 7). A word of another opcode is refused by
the default `BaseStep`, which the model takes (the spec's own decision D1, log 6). That the bytes stand little-endian is the
spec's own decision D4 (log 4). -/
def Obligations.StepChecksInOrder : Prop :=
  ∀ s : State,
    (¬ PcAligned s → step s = .fault (.fetchMisaligned s.pc)) ∧
    (PcAligned s → SomeByteUnbacked s s.pc → step s = .fault (.fetchAccess s.pc)) ∧
    (∀ w, PcAligned s → HoldsWord s s.pc w →
      (opcodeOf w ≠ 0b0001011#7 → step s = .refused (.baseRefused w)) ∧
      (opcodeOf w = 0b0001011#7 → pairOf w ∉ tenPairs → step s = .fault (.illegalInstruction w)) ∧
      (opcodeOf w = 0b0001011#7 → pairOf w ∈ tenPairs → SafeStep s))

/-- A step of the model is safe exactly from an aligned pc whose four bytes are backed and hold one of the ten. These are
choices: that a word of another opcode never answers a next state is the default `BaseStep` (the spec's own decision D1; the
model takes it, DESIGN CHOICE, log 6); that a misaligned pc, an unbacked byte and a reserved word do not is the spec's own
decisions D5, D6 and D7 (log 7); that the bytes stand little-endian is its decision D4 (log 4). -/
def Obligations.SafeStepsAreRvx10Steps : Prop :=
  ∀ s : State, SafeStep s ↔ PcAligned s ∧ ∃ w i, HoldsWord s s.pc w ∧ decode w = .instr i

/-- Section 3 of the memory file (little-endian is the spec's own decision D4): the byte at the pc is the low byte of the
word, and an aligned fetch does not wrap round the top of the space. -/
def Obligations.FetchIsLittleEndian : Prop :=
  Config.endian = .little ∧
  ∀ (s : State) (b0 b1 b2 b3 : Byte), PcAligned s → s.readByte s.pc = some b0 → s.readByte (s.pc + 1#32) = some b1 →
    s.readByte (s.pc + 2#32) = some b2 → s.readByte (s.pc + 3#32) = some b3 →
    (∃ w, fetch .little s = .word w ∧ w.extractLsb' 0 8 = b0 ∧ w.extractLsb' 8 8 = b1 ∧ w.extractLsb' 16 8 = b2 ∧
      w.extractLsb' 24 8 = b3) ∧
    (s.pc + 3#32).toNat = s.pc.toNat + 3

/-- The model's own placing of a word (log 3): at an aligned pc the word is fetched back in either byte order, and no
other byte, no register and not the pc has changed. -/
def Obligations.PlacedWordIsFetched : Prop :=
  ∀ (e : Endian) (s : State) (w : Word), PcAligned s →
    fetch e (placeAtPc e s w) = .word w ∧ (placeAtPc e s w).pc = s.pc ∧
    (∀ r, (placeAtPc e s w).readReg r = s.readReg r) ∧
    ∀ a : Word, a ≠ s.pc → a ≠ s.pc + 1#32 → a ≠ s.pc + 2#32 → a ≠ s.pc + 3#32 →
      (placeAtPc e s w).readByte a = s.readByte a

/-! ## Invariants, the base parameter and the run -/

/-- The state after reset is in good order. Its pc (log 2) and its empty memory (log 3) are the model's own choices. -/
def Obligations.ResetIsInGoodOrder : Prop := GoodOrder State.reset

/-- Every step of the model keeps the state in good order: the pc a multiple of 4 and memory in its canonical form. It takes
the default `BaseStep`, under which a word of another opcode has no next state (the spec's own decision D1, log 6). -/
def Obligations.StepKeepsGoodOrder : Prop :=
  ∀ s t : State, GoodOrder s → step s = .next t → GoodOrder t

/-- With any `BaseStep` that keeps the state in good order (section 1 of the base boundary file, the spec's own decision
D1), every step does, in either byte order. -/
def Obligations.AnyBaseStepKeepsGoodOrder : Prop :=
  ∀ (e : Endian) (base : Word → State → Host.Outcome State Fault Refusal),
    (∀ w s t, opcodeOf w ≠ 0b0001011#7 → GoodOrder s → base w s = .next t → GoodOrder t) →
    ∀ s t : State, GoodOrder s → stepWith e base s = .next t → GoodOrder t

/-- Section 1 of the base boundary file (the spec's own decision D1): `BaseStep` gets exactly the words of another opcode,
what it answers is the step, and its default refuses. A step of any other word does not depend on it. -/
def Obligations.BaseStepGetsOtherWordsOnly : Prop :=
  ∀ (e : Endian) (base : Word → State → Host.Outcome State Fault Refusal) (s : State),
    (∀ w, fetch e s = .word w → opcodeOf w ≠ 0b0001011#7 →
      stepWith e base s = base w s ∧ stepWith e baseStep s = .refused (.baseRefused w)) ∧
    ((∀ w, fetch e s = .word w → opcodeOf w = 0b0001011#7) → stepWith e base s = stepWith e baseStep s)

/-- Section 7 of the memory file (the spec's own decision D16): in a run of any length memory never changes. Words of another
opcode are refused by the default `BaseStep`, which the model takes (the spec's own decision D1, log 6). -/
def Obligations.RunNeverChangesMemory : Prop :=
  ∀ (k : Nat) (s t : State), Host.Core.run core k s = .next t → t.mem = s.mem ∧ ∀ a, t.readByte a = s.readByte a

/-- Section 2 of the base boundary file with the end of a run of the reset file (the spec's own decision D17): where `n`
words of RVX10 follow one another from an aligned pc, `n` steps run them once each in rising order, to the pc after the
last, with memory unchanged. Where they do not fill the whole space, that is where the run is over and not before. The
words stand in memory little-endian, which is the spec's own decision D4 (log 4), and the steps are those of the model. The
number of steps a run is given is the model's own choice (log 9). -/
def Obligations.StraightLineRunCompletes : Prop :=
  ∀ (s : State) (n : Nat), PcAligned s → NextWordsAreRvx10 s n →
    ∃ t, Host.Core.run core n s = .next t ∧ t.pc = s.pc + BitVec.ofNat 32 (4 * n) ∧ t.mem = s.mem ∧
      (n < 2 ^ 30 → runUntil (endOfRun s.pc n) n s = .over t ∧
        ∀ k, k < n → ∃ u, runUntil (endOfRun s.pc n) k s = .running u)

/-- Section 4 of the exceptions file (the spec's own decision D11): a fault or a refusal ends the run for good, however
many more steps are allowed. -/
def Obligations.StopsAreTerminal : Prop :=
  ∀ (fin : State → Bool) (s t : State) (j k : Nat), runUntil fin j s = .running t →
    (∀ f, step t = .fault f → runUntil fin (j + k + 1) s = .faulted f) ∧
    (∀ r, step t = .refused r → runUntil fin (j + k + 1) s = .refused r)

/-- Section 3 of the reset file (the end of a run is the spec's own decision D17): where the run is over the model takes
no step, and the recommended end is judged modulo 2^32. -/
def Obligations.RunIsOverWithoutAFetch : Prop :=
  (∀ (fin : State → Bool) (s : State) (k : Nat), fin s = true → runUntil fin k s = .over s) ∧
  ∀ (b : Word) (n : Nat) (s : State), endOfRun b n s = true ↔ s.pc.toNat = (b.toNat + 4 * n) % 2 ^ 32

/-- Section 1 of the base boundary file (the spec's own decision D1, log 6), over whole runs: a run that the default
`BaseStep` never refuses is the same run under every other `BaseStep`, in either byte order and for every `EndOfRun`. -/
def Obligations.UnrefusedRunIgnoresBaseStep : Prop :=
  ∀ (e : Endian) (base : Word → State → Host.Outcome State Fault Refusal) (fin : State → Bool) (k : Nat) (s : State),
    (∀ w, runWith e baseStep fin k s ≠ .refused (.baseRefused w)) → runWith e base fin k s = runWith e baseStep fin k s

/-- The parameters of the scope file that are open, all at once (the spec's own decisions D1, D4, D6, D14, D17): from any
launch registers, with `n` words of RVX10 in memory from an aligned `RESET_PC` on, in the byte order the fetch has, and under
every `BaseStep`, the run to the recommended end is over after `n` steps and with any more allowed, at the pc after the last
word, with the memory it was launched with. The number of steps a run is given is the model's own choice (log 9). -/
def Obligations.StraightLineRunUnderEveryParameter : Prop :=
  ∀ (e : Endian) (base : Word → State → Host.Outcome State Fault Refusal) (x : Vector Word 31) (resetPc : Word)
    (memMap : Memory) (n : Nat), n < 2 ^ 30 → PcAligned (State.launch x resetPc memMap) →
    (∀ k, k < n → ∃ w i, (State.launch x resetPc memMap).readWord e (resetPc + BitVec.ofNat 32 (4 * k)) = some w ∧
      decode w = .instr i) →
    ∃ t, (∀ j, runFromLaunch e base (endOfRun resetPc n) x resetPc memMap (n + j) = .over t) ∧
      t.pc = resetPc + BitVec.ofNat 32 (4 * n) ∧ t.mem = memMap

/-- With any `BaseStep` that keeps the state in good order (the spec's own decision D1, log 6), a run keeps it for every
`EndOfRun` and in either byte order, whether it is over or stands at some state with its steps used up. -/
def Obligations.AnyRunKeepsGoodOrder : Prop :=
  ∀ (e : Endian) (base : Word → State → Host.Outcome State Fault Refusal) (fin : State → Bool),
    (∀ w s t, opcodeOf w ≠ 0b0001011#7 → GoodOrder s → base w s = .next t → GoodOrder t) →
    ∀ (k : Nat) (s t : State), GoodOrder s →
      (runWith e base fin k s = .over t ∨ runWith e base fin k s = .running t) → GoodOrder t

/-! ## Laws of the operations -/

/-- Section 5 of the scope file, the two readings of a value (two's complement is marked general knowledge there): the
range of the signed reading, and that it differs from the unsigned one by 2^32 exactly when bit 31 is set. -/
def Obligations.SignedReading : Prop :=
  ∀ v : Word, -2 ^ 31 ≤ signed v ∧ signed v < 2 ^ 31 ∧
    (v.getLsbD 31 = false → signed v = (v.toNat : Int)) ∧ (v.getLsbD 31 = true → signed v = (v.toNat : Int) - 2 ^ 32) ∧
    unsigned v < 2 ^ 32 ∧ (unsigned v : Int) = signed v % 2 ^ 32

/-- The laws at the end of the bitwise file. -/
def Obligations.BitwiseLaws : Prop :=
  ∀ a b : Word, andnOf a b ||| (a &&& b) = a ∧ andnOf a b &&& b = 0#32 ∧ ornOf a b = ~~~andnOf b a ∧
    xnorOf a b = ~~~(andnOf a b ||| andnOf b a) ∧ xnorOf a b = xnorOf b a ∧ xnorOf (xnorOf a b) b = a

/-- The laws at the end of the min/max file: as a pair the results are the operands, signed and unsigned agree when the
sign bits do and swap when they differ, and each operation is commutative, idempotent and associative. -/
def Obligations.MinMaxLaws : Prop :=
  (∀ a b : Word, ((minOf a b = a ∧ maxOf a b = b) ∨ (minOf a b = b ∧ maxOf a b = a)) ∧
    ((minuOf a b = a ∧ maxuOf a b = b) ∨ (minuOf a b = b ∧ maxuOf a b = a)) ∧
    (a.getLsbD 31 = b.getLsbD 31 → minOf a b = minuOf a b ∧ maxOf a b = maxuOf a b) ∧
    (a.getLsbD 31 ≠ b.getLsbD 31 → minOf a b = maxuOf a b ∧ maxOf a b = minuOf a b)) ∧
  ∀ f ∈ [minOf, maxOf, minuOf, maxuOf], ∀ a b c : Word, f a b = f b a ∧ f a a = a ∧ f (f a b) c = f a (f b c)

/-- The laws at the end of the rotation file: the two directions undo each other and mirror each other, and distances
add modulo 32. -/
def Obligations.RotationLaws : Prop :=
  ∀ (a : Word) (m n : Nat), m < 32 → n < 32 →
    rotr32 (rotl32 a n) n = a ∧ rotl32 (rotr32 a n) n = a ∧ rotl32 a n = rotr32 a ((32 - n) % 32) ∧
    rotl32 (rotl32 a m) n = rotl32 a ((m + n) % 32)

/-- The laws at the end of the unary file. On 0x80000000 they rest on the spec's own decision D8 (log 5). -/
def Obligations.AbsLaws : Prop :=
  ∀ a : Word, absOf (absOf a) = absOf a ∧ absOf a = absOf (neg a) ∧ absOf a = maxOf a (neg a) ∧
    (unsigned (absOf a) : Int) = |signed a| ∧ (0 ≤ signed (absOf a) ↔ a ≠ 0x80000000#32)

/-- Section 3 of the base boundary file, constants from x0: all-ones by ORN and XNOR, zero by ANDN and MIN, whatever the
state. -/
def Obligations.ConstantsFromX0 : Prop :=
  ∀ (s : State) (rd : RegNum),
    CompletesWriting (.orn rd 0 0) s 0xFFFFFFFF#32 ∧ CompletesWriting (.xnor rd 0 0) s 0xFFFFFFFF#32 ∧
    CompletesWriting (.andn rd 0 0) s 0x00000000#32 ∧ CompletesWriting (.min rd 0 0) s 0x00000000#32
end

