-- ==== Sys2Proof/Laws/Bits.lean ====
section
/-! SUPPORT. The primitives in terms of the library's: the two readings, the two comparisons, the shifts and the distance. -/

namespace Sys2Proof.Machine

/-- The signed reading is the library's `toInt` (R9). -/
theorem signed_eq_toInt (v : Word) : signed v = v.toInt := by
  unfold signed
  rw [BitVec.toInt_eq_msb_cond, BitVec.msb_eq_getLsbD_last]
  simp

/-- A value is determined by its signed reading. -/
theorem signed_inj {a b : Word} (h : signed a = signed b) : a = b := by
  rw [signed_eq_toInt, signed_eq_toInt] at h
  exact BitVec.eq_of_toInt_eq h

/-- `a <s b` (section 5.1). -/
@[simp] theorem ltS_iff (a b : Word) : ltS a b = true ↔ signed a < signed b := by simp [ltS]

/-- `a <u b` (section 5.1). -/
@[simp] theorem ltU_iff (a b : Word) : ltU a b = true ↔ a.toNat < b.toNat := by
  unfold ltU unsigned
  exact decide_eq_true_iff

/-- Bit 31 says which of the two readings differ (R9). -/
theorem signed_cases (a : Word) :
    (2 ^ 31 ≤ a.toNat ∧ a.getLsbD 31 = true ∧ signed a = (a.toNat : Int) - 2 ^ 32) ∨
    (a.toNat < 2 ^ 31 ∧ a.getLsbD 31 = false ∧ signed a = (a.toNat : Int)) := by
  have hb := BitVec.msb_eq_decide a
  rw [BitVec.msb_eq_getLsbD_last] at hb
  have hb' : a.getLsbD 31 = decide (2 ^ 31 ≤ a.toNat) := by simpa using hb
  unfold signed
  rw [hb']
  by_cases h : 2 ^ 31 ≤ a.toNat
  · exact .inl ⟨h, decide_eq_true h, if_pos (decide_eq_true h)⟩
  · exact .inr ⟨by omega, decide_eq_false h, by rw [if_neg]; simpa using h⟩

/-- The distance is the value modulo 32 (R41, R67). -/
theorem distance_eq_mod (b : Word) : distance b = b.toNat % 32 := by
  simp only [distance, zext, BitVec.toNat_setWidth, BitVec.extractLsb'_toNat, Nat.shiftRight_zero]
  omega

theorem distance_lt (b : Word) : distance b < 32 := by
  rw [distance_eq_mod]
  omega

end Sys2Proof.Machine
end

