-- ==== Sys2Proof/Laws/Decode.lean ====
section
/-! SUPPORT. The fields of an assembled word (R35, R36): the formula of R36 lays the fields side by side, and each slice
of R35 gives its field back. -/

namespace Sys2Proof

/-- The formula of R36 lays the six fields side by side (R35). -/
theorem encodeR_eq_append (f7 : BitVec 7) (rs2 rs1 : RegNum) (f3 : BitVec 3) (rd : RegNum) :
    encodeR f7 rs2 rs1 f3 rd = f7 ++ rs2 ++ rs1 ++ f3 ++ rd ++ opcodeRvx10 := by
  apply BitVec.eq_of_getLsbD_eq
  intro i hi
  simp only [encodeR, BitVec.getLsbD_append, BitVec.getLsbD_or, BitVec.getLsbD_shiftLeft, BitVec.getLsbD_setWidth]
  interval_cases i <;> simp

@[simp] theorem opcodeOf_encodeR (f7 : BitVec 7) (rs2 rs1 : RegNum) (f3 : BitVec 3) (rd : RegNum) :
    opcodeOf (encodeR f7 rs2 rs1 f3 rd) = opcodeRvx10 := by
  rw [encodeR_eq_append]
  apply BitVec.eq_of_getLsbD_eq
  intro i hi
  simp only [opcodeOf, BitVec.getLsbD_extractLsb', BitVec.getLsbD_append]
  interval_cases i <;> simp

@[simp] theorem rdOf_encodeR (f7 : BitVec 7) (rs2 rs1 : RegNum) (f3 : BitVec 3) (rd : RegNum) :
    rdOf (encodeR f7 rs2 rs1 f3 rd) = rd := by
  rw [encodeR_eq_append]
  apply BitVec.eq_of_getLsbD_eq
  intro i hi
  simp only [rdOf, BitVec.getLsbD_extractLsb', BitVec.getLsbD_append]
  interval_cases i <;> simp

@[simp] theorem funct3Of_encodeR (f7 : BitVec 7) (rs2 rs1 : RegNum) (f3 : BitVec 3) (rd : RegNum) :
    funct3Of (encodeR f7 rs2 rs1 f3 rd) = f3 := by
  rw [encodeR_eq_append]
  apply BitVec.eq_of_getLsbD_eq
  intro i hi
  simp only [funct3Of, BitVec.getLsbD_extractLsb', BitVec.getLsbD_append]
  interval_cases i <;> simp

@[simp] theorem rs1Of_encodeR (f7 : BitVec 7) (rs2 rs1 : RegNum) (f3 : BitVec 3) (rd : RegNum) :
    rs1Of (encodeR f7 rs2 rs1 f3 rd) = rs1 := by
  rw [encodeR_eq_append]
  apply BitVec.eq_of_getLsbD_eq
  intro i hi
  simp only [rs1Of, BitVec.getLsbD_extractLsb', BitVec.getLsbD_append]
  interval_cases i <;> simp

@[simp] theorem rs2Of_encodeR (f7 : BitVec 7) (rs2 rs1 : RegNum) (f3 : BitVec 3) (rd : RegNum) :
    rs2Of (encodeR f7 rs2 rs1 f3 rd) = rs2 := by
  rw [encodeR_eq_append]
  apply BitVec.eq_of_getLsbD_eq
  intro i hi
  simp only [rs2Of, BitVec.getLsbD_extractLsb', BitVec.getLsbD_append]
  interval_cases i <;> simp

@[simp] theorem funct7Of_encodeR (f7 : BitVec 7) (rs2 rs1 : RegNum) (f3 : BitVec 3) (rd : RegNum) :
    funct7Of (encodeR f7 rs2 rs1 f3 rd) = f7 := by
  rw [encodeR_eq_append]
  apply BitVec.eq_of_getLsbD_eq
  intro i hi
  simp only [funct7Of, BitVec.getLsbD_extractLsb', BitVec.getLsbD_append]
  interval_cases i <;> simp

/-- A word is its six fields side by side (R35). -/
theorem word_eq_fields (w : Word) :
    w = funct7Of w ++ rs2Of w ++ rs1Of w ++ funct3Of w ++ rdOf w ++ opcodeOf w := by
  apply BitVec.eq_of_getLsbD_eq
  intro i hi
  simp only [funct7Of, rs2Of, rs1Of, funct3Of, rdOf, opcodeOf, BitVec.getLsbD_extractLsb', BitVec.getLsbD_append]
  interval_cases i <;> simp

/-- Under the opcode 0x0B, assembling the fields of a word gives the word back (R36). -/
theorem encodeR_fields {w : Word} (h : opcodeOf w = opcodeRvx10) :
    encodeR (funct7Of w) (rs2Of w) (rs1Of w) (funct3Of w) (rdOf w) = w := by
  rw [encodeR_eq_append]
  conv_rhs => rw [word_eq_fields w, h]

/-- All that the opcode map can answer (R39). -/
theorem opcodeMap_cases {f7 : BitVec 7} {f3 : BitVec 3} {mk : RegNum → RegNum → RegNum → Instr}
    (h : opcodeMap f7 f3 = some mk) :
    (f7 = 0#7 ∧ f3 = 0#3 ∧ mk = .andn) ∨ (f7 = 0#7 ∧ f3 = 1#3 ∧ mk = .orn) ∨ (f7 = 0#7 ∧ f3 = 2#3 ∧ mk = .xnor) ∨
    (f7 = 1#7 ∧ f3 = 0#3 ∧ mk = .min) ∨ (f7 = 1#7 ∧ f3 = 1#3 ∧ mk = .max) ∨ (f7 = 1#7 ∧ f3 = 2#3 ∧ mk = .minu) ∨
    (f7 = 1#7 ∧ f3 = 3#3 ∧ mk = .maxu) ∨ (f7 = 2#7 ∧ f3 = 0#3 ∧ mk = .rol) ∨ (f7 = 2#7 ∧ f3 = 1#3 ∧ mk = .ror) ∨
    (f7 = 3#7 ∧ f3 = 0#3 ∧ mk = fun rd rs1 _ => .abs rd rs1) := by
  simp only [← BitVec.toNat_inj]
  unfold opcodeMap at h
  split at h <;> simp_all

/-- A word under the opcode 0x0B decodes by the opcode map (R40). -/
theorem decode_of_opcode {w : Word} (h : opcodeOf w = opcodeRvx10) :
    decode w = match opcodeMap (funct7Of w) (funct3Of w) with
      | some mk => .instr (mk (rdOf w) (rs1Of w) (rs2Of w))
      | none => .reserved w := by
  unfold decode
  exact if_pos h

/-- A word that decodes to an instruction has the opcode 0x0B and a pair of the opcode map (R40). -/
theorem decode_instr_cases {w : Word} {i : Instr} (h : decode w = .instr i) :
    opcodeOf w = opcodeRvx10 ∧ ∃ mk, opcodeMap (funct7Of w) (funct3Of w) = some mk ∧
      i = mk (rdOf w) (rs1Of w) (rs2Of w) := by
  unfold decode at h
  split at h
  · next ho =>
    refine ⟨ho, ?_⟩
    split at h
    · next mk hm => exact ⟨mk, hm, (Decoded.instr.inj h).symm⟩
    · simp at h
  · simp at h

/-- A word handed to `BaseStep` is handed over whole (R40, R70). -/
theorem decode_base_eq {w v : Word} (h : decode w = .base v) : v = w := by
  unfold decode at h
  split at h
  · split at h <;> simp at h
  · exact (Decoded.base.inj h).symm

end Sys2Proof
end

