-- ==== Sys2Proof/Laws/State.lean ====
section
/-! SUPPORT. The small lemmas of State: each field after each update, and each read after each update. -/

namespace Sys2Proof.Machine

@[simp] theorem launch_x (x : Vector Word 31) (pc : Word) (m : Memory) : (State.launch x pc m).x = x := rfl
@[simp] theorem launch_pc (x : Vector Word 31) (pc : Word) (m : Memory) : (State.launch x pc m).pc = pc := rfl
@[simp] theorem launch_mem (x : Vector Word 31) (pc : Word) (m : Memory) : (State.launch x pc m).mem = m := rfl

@[simp] theorem advancePc_x (s : State) : s.advancePc.x = s.x := rfl
@[simp] theorem advancePc_pc (s : State) : s.advancePc.pc = s.pc + 4#32 := rfl
@[simp] theorem advancePc_mem (s : State) : s.advancePc.mem = s.mem := rfl

@[simp] theorem memWrite_x (e : Endian) (s : State) (a : Word) (n : Nat) (v : Word) : (s.memWrite e a n v).x = s.x := rfl
@[simp] theorem memWrite_pc (e : Endian) (s : State) (a : Word) (n : Nat) (v : Word) : (s.memWrite e a n v).pc = s.pc := rfl
@[simp] theorem memWrite_mem (e : Endian) (s : State) (a : Word) (n : Nat) (v : Word) :
    (s.memWrite e a n v).mem = Memory.writeBytes s.mem a (lowBytes e n v) := rfl

@[simp] theorem writeReg_pc (s : State) (r : RegNum) (v : Word) : (s.writeReg r v).pc = s.pc := by
  unfold State.writeReg; split <;> rfl

@[simp] theorem writeReg_mem (s : State) (r : RegNum) (v : Word) : (s.writeReg r v).mem = s.mem := by
  unfold State.writeReg; split <;> rfl

/-- x0 reads as zero in every state (R11). -/
@[simp] theorem readReg_x0 (s : State) : s.readReg 0#5 = 0#32 := by simp [State.readReg]

/-- A write of x0 is ignored (R11). -/
@[simp] theorem writeReg_x0 (s : State) (v : Word) : s.writeReg 0#5 v = s := by simp [State.writeReg]

theorem regIndex_ne {r q : RegNum} (hr : r ≠ 0#5) (hq : q ≠ 0#5) (h : q ≠ r) : r.toNat - 1 ≠ q.toNat - 1 := by
  have h1 : r.toNat ≠ 0 := fun e => hr (BitVec.eq_of_toNat_eq e)
  have h2 : q.toNat ≠ 0 := fun e => hq (BitVec.eq_of_toNat_eq e)
  have h3 : q.toNat ≠ r.toNat := fun e => h (BitVec.eq_of_toNat_eq e)
  omega

/-- A register read after it was written: the value written, zero for x0 (R11). -/
theorem readReg_writeReg_same (s : State) (r : RegNum) (v : Word) :
    (s.writeReg r v).readReg r = if r = 0#5 then 0#32 else v := by
  by_cases h : r = 0#5
  · simp [h]
  · simp [State.writeReg, State.readReg, h]

/-- A write leaves every other register alone (R12). -/
theorem readReg_writeReg_of_ne (s : State) {r q : RegNum} (v : Word) (h : q ≠ r) :
    (s.writeReg r v).readReg q = s.readReg q := by
  by_cases hr : r = 0#5
  · simp [hr]
  · by_cases hq : q = 0#5
    · simp [hq]
    · simp [State.writeReg, State.readReg, hr, hq, regIndex_ne hr hq h]

@[simp] theorem readReg_advancePc (s : State) (r : RegNum) : s.advancePc.readReg r = s.readReg r := rfl

@[simp] theorem readReg_memWrite (e : Endian) (s : State) (a : Word) (n : Nat) (v : Word) (r : RegNum) :
    (s.memWrite e a n v).readReg r = s.readReg r := rfl

@[simp] theorem readByte_advancePc (s : State) (a : Word) : s.advancePc.readByte a = s.readByte a := rfl

@[simp] theorem readByte_writeReg (s : State) (r : RegNum) (v a : Word) : (s.writeReg r v).readByte a = s.readByte a := by
  simp [State.readByte]

/-- Two states are equal when all their registers, pcs and memories are (R17). -/
theorem state_eq_of_reads {s t : State} (hx : ∀ r, s.readReg r = t.readReg r) (hpc : s.pc = t.pc)
    (hm : s.mem = t.mem) : s = t := by
  obtain ⟨x, pc, m⟩ := s
  obtain ⟨y, pc', m'⟩ := t
  simp only at hpc hm
  subst hpc hm
  have : x = y := by
    refine Vector.ext fun i hi => ?_
    have hmod : (i + 1) % 32 = i + 1 := Nat.mod_eq_of_lt (by omega)
    have hne : BitVec.ofNat 5 (i + 1) ≠ 0#5 := by
      intro e
      have e' := congrArg BitVec.toNat e
      simp only [BitVec.toNat_ofNat] at e'
      omega
    simpa [State.readReg, hne, hmod] using hx (BitVec.ofNat 5 (i + 1))
  rw [this]

end Sys2Proof.Machine
end

