-- ==== Sys2Proof/Laws/Exec.lean ====
section
/-! SUPPORT. Once, all that an instruction and a step can do. -/

namespace Sys2Proof.Machine

/-- The value an instruction computes from its operands (R60 to R69), in terms of the shared operations. -/
theorem exec_eq_finish (i : Instr) (s : State) : ∃ v, exec i s = finish i.dest v s := by
  cases i <;> exact ⟨_, rfl⟩

/-- `finish` answers one next state: the result in rd, the pc advanced, all else as it was (R11, R12, R15). -/
theorem finish_spec (rd : RegNum) (v : Word) (s : State) :
    ∃ t, finish rd v s = .next t ∧ t.readReg rd = (if rd = 0#5 then 0#32 else v) ∧
      (∀ r, r ≠ rd → t.readReg r = s.readReg r) ∧ t.pc = s.pc + 4#32 ∧ t.mem = s.mem :=
  ⟨_, rfl, by simp [readReg_writeReg_same], fun r h => by simp [readReg_writeReg_of_ne _ _ h], by simp, by simp⟩

/-- Every instruction's next state, said once: some value in its destination, and the frame. -/
theorem exec_next_cases {i : Instr} {s t : State} (h : exec i s = .next t) :
    ∃ v, t = (s.writeReg i.dest v).advancePc := by
  obtain ⟨v, hv⟩ := exec_eq_finish i s
  rw [hv] at h
  exact ⟨v, (Host.Outcome.next.inj h).symm⟩

/-- What the fetch can answer (R22): one of its two faults, or the word that stands at an aligned pc. -/
theorem fetch_cases (e : Endian) (s : State) :
    (¬ PcAligned s ∧ fetch e s = .stopped (.fetchMisaligned s.pc)) ∨
    (PcAligned s ∧ s.readWord e s.pc = none ∧ fetch e s = .stopped (.fetchAccess s.pc)) ∨
    (PcAligned s ∧ ∃ w, s.readWord e s.pc = some w ∧ fetch e s = .word w) := by
  by_cases h : PcAligned s
  · cases hr : s.readWord e s.pc with
    | none => exact .inr (.inl ⟨h, rfl, by simp only [PcAligned] at h; simp [fetch, h, hr]⟩)
    | some w => exact .inr (.inr ⟨h, w, rfl, by simp only [PcAligned] at h; simp [fetch, h, hr]⟩)
  · exact .inl ⟨h, by simp only [PcAligned] at h; simp [fetch, h]⟩

/-- A step that answers a next state under any `BaseStep` ran one of the ten, or `BaseStep` answered it (R103). -/
theorem stepWith_next_cases {e : Endian} {base : Word → State → Host.Outcome State Fault Refusal} {s t : State}
    (h : stepWith e base s = .next t) :
    PcAligned s ∧ ∃ w, fetch e s = .word w ∧
      ((∃ i, decode w = .instr i ∧ exec i s = .next t) ∨ (decode w = .base w ∧ base w s = .next t)) := by
  rcases fetch_cases e s with ⟨_, hf⟩ | ⟨_, _, hf⟩ | ⟨ha, w, _, hf⟩
  · simp [stepWith, hf, raise] at h
  · simp [stepWith, hf, raise] at h
  · refine ⟨ha, w, hf, ?_⟩
    simp only [stepWith, hf] at h
    cases hd : decode w with
    | instr i => exact .inl ⟨i, rfl, by simpa [execDecoded, hd] using h⟩
    | reserved v => simp [execDecoded, hd, raise] at h
    | base v =>
      obtain rfl := decode_base_eq hd
      exact .inr ⟨rfl, by simpa [execDecoded, hd] using h⟩

/-- A step of the model that answers a next state ran one of the ten from an aligned pc. -/
theorem step_next_cases {s t : State} (h : step s = .next t) :
    PcAligned s ∧ ∃ w i, fetch Config.endian s = .word w ∧ decode w = .instr i ∧ exec i s = .next t := by
  obtain ⟨ha, w, hf, ⟨i, hd, he⟩ | ⟨_, hb⟩⟩ := stepWith_next_cases h
  · exact ⟨ha, w, i, hf, hd, he⟩
  · simp [baseStep] at hb

end Sys2Proof.Machine
end

