-- ==== Sys2Proof/Laws/PerInstr.lean ====
section
/-! SUPPORT. Statements about every instruction as syntax, one lemma for each constructor. -/

namespace Sys2Proof.Laws

/-- The encoded word of an instruction has the opcode 0x0B, its rd and rs1 fields name the destination and the first
source, its rs2 field names the second source or is 00000 where there is none (R36, R37, R42), and the instruction is
well-formed (R82). -/
def EncodedFields.Statement (i : Instr) : Prop :=
  opcodeOf (encode i) = opcodeRvx10 ∧ rdOf (encode i) = i.dest ∧ rs1Of (encode i) = i.src1 ∧
    rs2Of (encode i) = i.src2.getD 0#5 ∧ i.wellFormed = true

theorem regExists_toNat (r : RegNum) : regExists r.toNat = true :=
  decide_eq_true (by simpa [Config.nregs] using r.isLt)

theorem EncodedFields.andn (rd rs1 rs2 : RegNum) : EncodedFields.Statement (.andn rd rs1 rs2) := by
  simp [EncodedFields.Statement, encode, Instr.wellFormed, Instr.dest, Instr.src1, Instr.src2, regExists_toNat]

theorem EncodedFields.orn (rd rs1 rs2 : RegNum) : EncodedFields.Statement (.orn rd rs1 rs2) := by
  simp [EncodedFields.Statement, encode, Instr.wellFormed, Instr.dest, Instr.src1, Instr.src2, regExists_toNat]

theorem EncodedFields.xnor (rd rs1 rs2 : RegNum) : EncodedFields.Statement (.xnor rd rs1 rs2) := by
  simp [EncodedFields.Statement, encode, Instr.wellFormed, Instr.dest, Instr.src1, Instr.src2, regExists_toNat]

theorem EncodedFields.min (rd rs1 rs2 : RegNum) : EncodedFields.Statement (.min rd rs1 rs2) := by
  simp [EncodedFields.Statement, encode, Instr.wellFormed, Instr.dest, Instr.src1, Instr.src2, regExists_toNat]

theorem EncodedFields.max (rd rs1 rs2 : RegNum) : EncodedFields.Statement (.max rd rs1 rs2) := by
  simp [EncodedFields.Statement, encode, Instr.wellFormed, Instr.dest, Instr.src1, Instr.src2, regExists_toNat]

theorem EncodedFields.minu (rd rs1 rs2 : RegNum) : EncodedFields.Statement (.minu rd rs1 rs2) := by
  simp [EncodedFields.Statement, encode, Instr.wellFormed, Instr.dest, Instr.src1, Instr.src2, regExists_toNat]

theorem EncodedFields.maxu (rd rs1 rs2 : RegNum) : EncodedFields.Statement (.maxu rd rs1 rs2) := by
  simp [EncodedFields.Statement, encode, Instr.wellFormed, Instr.dest, Instr.src1, Instr.src2, regExists_toNat]

theorem EncodedFields.rol (rd rs1 rs2 : RegNum) : EncodedFields.Statement (.rol rd rs1 rs2) := by
  simp [EncodedFields.Statement, encode, Instr.wellFormed, Instr.dest, Instr.src1, Instr.src2, regExists_toNat]

theorem EncodedFields.ror (rd rs1 rs2 : RegNum) : EncodedFields.Statement (.ror rd rs1 rs2) := by
  simp [EncodedFields.Statement, encode, Instr.wellFormed, Instr.dest, Instr.src1, Instr.src2, regExists_toNat]

theorem EncodedFields.abs (rd rs1 : RegNum) : EncodedFields.Statement (.abs rd rs1) := by
  simp [EncodedFields.Statement, encode, Instr.wellFormed, Instr.dest, Instr.src1, Instr.src2, regExists_toNat]

end Sys2Proof.Laws
end

