-- ==== Sys2Proof/Laws/Run.lean ====
section
/-! SUPPORT. Once, all that a run can do, under every value of its parameters. -/

namespace Sys2Proof.Machine

variable {e : Endian} {base : Word → State → Host.Outcome State Fault Refusal} {fin : State → Bool}

/-- Where `EndOfRun` holds the run is over, however many steps are left (R104). -/
theorem runWith_of_over {s : State} (h : fin s = true) (k : Nat) : runWith e base fin k s = .over s := by
  cases k <;> simp [runWith, h]

/-- With no step left and the run not over, it stands where it is. -/
theorem runWith_zero {s : State} (h : fin s = false) : runWith e base fin 0 s = .running s := by
  simp [runWith, h]

/-- A next state is where the run goes on. -/
theorem runWith_of_next {s t : State} (h : fin s = false) (hs : stepWith e base s = .next t) (k : Nat) :
    runWith e base fin (k + 1) s = runWith e base fin k t := by
  simp [runWith, h, hs]

/-- A fault ends the run (R84). -/
theorem runWith_of_fault {s : State} {f : Fault} (h : fin s = false) (hs : stepWith e base s = .fault f) (k : Nat) :
    runWith e base fin (k + 1) s = .faulted f := by
  simp [runWith, h, hs]

/-- A refusal ends the run (R70). -/
theorem runWith_of_refused {s : State} {r : Refusal} (h : fin s = false) (hs : stepWith e base s = .refused r)
    (k : Nat) : runWith e base fin (k + 1) s = .refused r := by
  simp [runWith, h, hs]

/-- The run of the model is the run under the spec's defaults, step by step. -/
theorem runUntil_eq (fin : State → Bool) (k : Nat) (s : State) :
    runUntil fin k s = runWith Config.endian baseStep fin k s := rfl

theorem runUntil_zero (fin : State → Bool) (s : State) :
    runUntil fin 0 s = if fin s then .over s else .running s := rfl

theorem runUntil_succ (fin : State → Bool) (k : Nat) (s : State) :
    runUntil fin (k + 1) s = if fin s then .over s else
      match step s with
      | .next t => runUntil fin k t
      | .fault f => .faulted f
      | .refused r => .refused r := rfl

/-- Whatever the steps keep, the run keeps: the induction over runs, once. -/
theorem runWith_keeps {P : State → Prop} (hP : ∀ s t, P s → stepWith e base s = .next t → P t) {k : Nat} {s t : State}
    (hs : P s) (h : runWith e base fin k s = .over t ∨ runWith e base fin k s = .running t) : P t := by
  induction k generalizing s with
  | zero =>
    cases hf : fin s <;> simp [runWith, hf] at h <;> exact h ▸ hs
  | succ k ih =>
    cases hf : fin s with
    | true =>
      simp only [runWith_of_over hf, RunResult.over.injEq, reduceCtorEq, or_false] at h
      exact h ▸ hs
    | false =>
      cases hn : stepWith e base s with
      | next u => exact ih (hP s u hs hn) (by simpa only [runWith_of_next hf hn] using h)
      | fault f => simp [runWith_of_fault hf hn] at h
      | refused r => simp [runWith_of_refused hf hn] at h

end Sys2Proof.Machine
end

