-- ==== Sys2Proof/Tests/Slice0.lean ====
section
/-! SUPPORT. Tests. Expected words, bytes and values are those of spec/95_test_vectors.md, of the rules' own examples and
corner cases, or computed by hand from a rule. The last part holds a witness for each statement with hypotheses. -/

namespace Sys2Proof.Tests

open Sys2Proof.Machine

/-- The word types have the widths the parameters name (R5, R6, R14). -/
theorem test_widths : Word = BitVec Config.xlen ∧ Word = BitVec Config.ilen ∧ Word = BitVec Config.pcWidth :=
  ⟨rfl, rfl, rfl⟩

/-! ## Well-formedness: each check refuses an ill-formed term -/

theorem test_register_32_does_not_exist : regExists 31 = true ∧ regExists 32 = false := by decide
theorem test_line_unknown_mnemonic : (AsmLine.mk "add" [1, 2, 3]).wellFormed = false := by decide
theorem test_line_two_operands : (AsmLine.mk "andn" [1, 2]).wellFormed = false := by decide
theorem test_line_abs_three_operands : (AsmLine.mk "abs" [1, 2, 3]).wellFormed = false := by decide
theorem test_line_register_32 : (AsmLine.mk "andn" [1, 32, 3]).wellFormed = false := by decide
theorem test_line_well_formed : (AsmLine.mk "abs" [31, 0]).wellFormed = true := by decide
theorem test_memory_unsorted : Memory.wf [(8, 1#8), (4, 2#8)] = false := by decide
theorem test_memory_repeated : Memory.wf [(4, 1#8), (4, 2#8)] = false := by decide
theorem test_memory_above_space : Memory.wf [(4294967296, 1#8)] = false := by decide
theorem test_memory_top_byte : Memory.wf [(0, 1#8), (4294967295, 1#8)] = true := by decide
theorem test_word_not_canonical : isCanonical 0x06FA8A0B#32 = false ∧ isCanonical 0x060A8A0B#32 = true := by decide

/-! ## Decoding: words written out bit by bit, funct7 rs2 rs1 funct3 rd opcode (spec/95_test_vectors.md 1.2) -/

theorem test_decode_andn :
    decode (0b0000000#7 ++ 0b00111#5 ++ 0b00110#5 ++ 0b000#3 ++ 0b00101#5 ++ 0b0001011#7) = .instr (.andn 5 6 7) := by decide
theorem test_decode_orn :
    decode (0b0000000#7 ++ 0b00111#5 ++ 0b00110#5 ++ 0b001#3 ++ 0b00101#5 ++ 0b0001011#7) = .instr (.orn 5 6 7) := by decide
theorem test_decode_xnor :
    decode (0b0000000#7 ++ 0b00111#5 ++ 0b00110#5 ++ 0b010#3 ++ 0b00101#5 ++ 0b0001011#7) = .instr (.xnor 5 6 7) := by decide
theorem test_decode_min :
    decode (0b0000001#7 ++ 0b01100#5 ++ 0b01011#5 ++ 0b000#3 ++ 0b01010#5 ++ 0b0001011#7) = .instr (.min 10 11 12) := by decide
theorem test_decode_max :
    decode (0b0000001#7 ++ 0b01100#5 ++ 0b01011#5 ++ 0b001#3 ++ 0b01010#5 ++ 0b0001011#7) = .instr (.max 10 11 12) := by decide
theorem test_decode_minu :
    decode (0b0000001#7 ++ 0b01100#5 ++ 0b01011#5 ++ 0b010#3 ++ 0b01010#5 ++ 0b0001011#7) = .instr (.minu 10 11 12) := by decide
theorem test_decode_maxu :
    decode (0b0000001#7 ++ 0b01010#5 ++ 0b01001#5 ++ 0b011#3 ++ 0b01000#5 ++ 0b0001011#7) = .instr (.maxu 8 9 10) := by decide
theorem test_decode_rol :
    decode (0b0000010#7 ++ 0b10001#5 ++ 0b10000#5 ++ 0b000#3 ++ 0b01111#5 ++ 0b0001011#7) = .instr (.rol 15 16 17) := by decide
theorem test_decode_ror :
    decode (0b0000010#7 ++ 0b10001#5 ++ 0b10000#5 ++ 0b001#3 ++ 0b01111#5 ++ 0b0001011#7) = .instr (.ror 15 16 17) := by decide
theorem test_decode_abs :
    decode (0b0000011#7 ++ 0b00000#5 ++ 0b10101#5 ++ 0b000#3 ++ 0b10100#5 ++ 0b0001011#7) = .instr (.abs 20 21) := by decide

/-- `abs` with the rs2 field 31 (spec/95_test_vectors.md 2.2). -/
theorem test_decode_abs_ignored_field :
    decode (0b0000011#7 ++ 0b11111#5 ++ 0b10101#5 ++ 0b000#3 ++ 0b10100#5 ++ 0b0001011#7) = .instr (.abs 20 21) := by
  decide

/-- Extreme register fields (spec/95_test_vectors.md 2.1). -/
theorem test_encode_extremes : encode (.maxu 31 31 31) = 0x03FFBF8B#32 ∧ encode (.ror 31 0 31) = 0x05F01F8B#32 ∧
    encode (.andn 0 0 0) = 0x0000000B#32 := by decide

/-- All seven bits of funct7 are compared (spec/95_test_vectors.md 2.2). -/
theorem test_decode_high_funct7 : decode 0x4000000B#32 = .reserved 0x4000000B#32 := by decide

/-- One opcode bit away from ANDN (spec/95_test_vectors.md 2.2). -/
theorem test_decode_other_opcode : decode 0x0073022B#32 = .base 0x0073022B#32 := by decide

/-- The byte image of `abs x20,x21` (spec/95_test_vectors.md 2.3). -/
theorem test_bytes_little : bytesOfWord .little 0x060A8A0B#32 = [0x0B#8, 0x8A#8, 0x0A#8, 0x06#8] := by decide
theorem test_word_of_bytes : wordOfBytes .little 0x8B#8 0x02#8 0x73#8 0x00#8 = 0x0073028B#32 ∧
    wordOfBytes .big 0x00#8 0x73#8 0x02#8 0x8B#8 = 0x0073028B#32 := by decide
theorem test_table_word : decodeTableWord 32 0x0518178B = some (.ror 15 16 17) := by decide

/-! ## Assembly text (spec/30_encoding.md R48 to R51) -/

theorem test_assemble_listing : assembleLine "rol  x6,x5,x7      # bytes 0B 83 72 04".toList = some (.rol 6 5 7) := by decide
theorem test_assemble_heading : assembleWord "ABS x20, x21".toList = some 0x060A8A0B#32 := by decide
theorem test_assemble_no_abi_name : assembleLine "andn a0,x6,x7".toList = none := by decide
theorem test_assemble_no_register_32 : assembleLine "andn x32,x6,x7".toList = none := by decide
theorem test_assemble_no_pseudo : assembleLine "not x5,x6".toList = none := by decide
theorem test_render : render (.minu 4 3 2) = "minu x4,x3,x2".toList := by decide

/-! ## One step of each instruction -/

/-- A state with registers set, at a pc, everything else as after reset. -/
def stateAt (pc : Word) (regs : List (RegNum × Word)) : State :=
  regs.foldl (fun s p => s.writeReg p.1 p.2) { State.reset with pc := pc }

/-- One step on a word placed at 0x100. -/
def stepOn (w : Word) (regs : List (RegNum × Word)) : Host.Outcome State Fault Refusal :=
  step (placeAtPc .little (stateAt 0x100#32 regs) w)

/-- The next state of an outcome. -/
def nextOf : Host.Outcome State Fault Refusal → Option State
  | .next t => some t
  | _ => none

/-- A register and the pc after a step. -/
def after (w : Word) (regs : List (RegNum × Word)) (r : RegNum) : Option (Word × Word) :=
  (nextOf (stepOn w regs)).map fun t => (t.readReg r, t.pc)

/-- R60. -/
theorem test_step_andn : after 0x0073028B#32 [(6, 0xF0F0A5A5#32), (7, 0x0F0FFFFF#32)] 5 = some (0xF0F00000#32, 0x104#32) := by decide
/-- spec/95_test_vectors.md 3.1. -/
theorem test_step_andn_rd_is_rs2 : after (encode (.andn 6 5 6)) [(5, 0xFFFF0000#32), (6, 0x0F0F0F0F#32)] 6 = some (0xF0F00000#32, 0x104#32) := by decide
/-- R61. -/
theorem test_step_orn : after 0x0073128B#32 [(6, 0x00000000#32), (7, 0x80000000#32)] 5 = some (0x7FFFFFFF#32, 0x104#32) := by decide
/-- R62. -/
theorem test_step_xnor : after 0x0073228B#32 [(6, 0x12345678#32), (7, 0x00000000#32)] 5 = some (0xEDCBA987#32, 0x104#32) := by decide
/-- R63. -/
theorem test_step_min : after 0x02C5850B#32 [(11, 0x7FFFFFFF#32), (12, 0x80000000#32)] 10 = some (0x80000000#32, 0x104#32) := by decide
/-- spec/95_test_vectors.md 3.2. -/
theorem test_step_min_negative : after 0x02C5850B#32 [(11, 0xFFFFFFFE#32), (12, 0xFFFFFFFD#32)] 10 = some (0xFFFFFFFD#32, 0x104#32) := by decide
/-- R64. -/
theorem test_step_max : after 0x02C5950B#32 [(11, 0xFFFFFFFF#32), (12, 0x00000001#32)] 10 = some (0x00000001#32, 0x104#32) := by decide
/-- R65. -/
theorem test_step_minu : after 0x02C5A50B#32 [(11, 0xFFFFFFFF#32), (12, 0x00000001#32)] 10 = some (0x00000001#32, 0x104#32) := by decide
/-- R66. -/
theorem test_step_maxu : after 0x02A4B40B#32 [(9, 0xFFFFFFFF#32), (10, 0x00000001#32)] 8 = some (0xFFFFFFFF#32, 0x104#32) := by decide
/-- R67. -/
theorem test_step_rol : after 0x0518078B#32 [(16, 0x12345678#32), (17, 0x00000004#32)] 15 = some (0x23456781#32, 0x104#32) := by decide
/-- R67. -/
theorem test_step_rol_by_32 : after 0x0518078B#32 [(16, 0x80000001#32), (17, 0x00000020#32)] 15 = some (0x80000001#32, 0x104#32) := by decide
/-- spec/95_test_vectors.md 3.3. -/
theorem test_step_ror : after 0x0518178B#32 [(16, 0x80000001#32), (17, 0x00000021#32)] 15 = some (0xC0000000#32, 0x104#32) := by decide
/-- spec/95_test_vectors.md 3.3. -/
theorem test_step_ror_all_ones : after 0x0518178B#32 [(16, 0x12345678#32), (17, 0xFFFFFFFF#32)] 15 = some (0x2468ACF0#32, 0x104#32) := by decide
/-- R69, the non-canonical word. -/
theorem test_step_abs : after 0x06FA8A0B#32 [(21, 0xFFFFFFFB#32), (15, 0xDEADBEEF#32)] 20 = some (0x00000005#32, 0x104#32) := by decide
/-- R69, the spec's decision D8. -/
theorem test_step_abs_most_negative : after 0x060A8A0B#32 [(21, 0x80000000#32)] 20 = some (0x80000000#32, 0x104#32) := by decide

/-- `rol x5,x5,x5` with 3 (spec/95_test_vectors.md 3.3). -/
theorem test_step_rol_all_same : after (encode (.rol 5 5 5)) [(5, 3#32)] 5 = some (0x18#32, 0x104#32) := by decide
/-- A write of x0 is discarded and the pc advances (R11). -/
theorem test_step_x0 : after (encode (.orn 0 5 6)) [(5, 7#32)] 0 = some (0#32, 0x104#32) := by decide
/-- The pc wraps at the top (R15). -/
theorem test_pc_wraps : (nextOf (step (placeAtPc .little (stateAt 0xFFFFFFFC#32 []) 0x0262860B#32))).map (·.pc) = some 0#32 := by
  decide
/-- Both endians place and fetch the same word (R23). -/
theorem test_fetch_big : fetch .big (placeAtPc .big (stateAt 4#32 []) 0x0073028B#32) = .word 0x0073028B#32 := by decide

/-- The name a step stops under, none where it answers a next state. -/
def stopOf : Host.Outcome State Fault Refusal → Option (Fault ⊕ Refusal)
  | .fault f => some (.inl f)
  | .refused r => some (.inr r)
  | .next _ => none

/-- Reset memory is unbacked (R22, log 3). -/
theorem test_reset_fetch : stopOf (step State.reset) = some (.inl (.fetchAccess 0#32)) := by decide
/-- Program P5 of spec/95_test_vectors.md, its reserved word. -/
theorem test_reserved : stopOf (stepOn 0x0000300B#32 []) = some (.inl (.illegalInstruction 0x0000300B#32)) := by decide
/-- Program P6 of spec/95_test_vectors.md, its base word. -/
theorem test_base : stopOf (stepOn 0x00000013#32 []) = some (.inr (.baseRefused 0x00000013#32)) := by decide
/-- The first instruction after reset, as the host places it. -/
theorem test_first_word : (nextOf (step (State.reset.withFetchWord 32 0x0000128B))).map (·.readReg 5) = some 0xFFFFFFFF#32 := by
  decide

/-! ## Witnesses: the hypotheses of each statement can be met -/

/-- Any two values in two registers: the hypotheses of `Yields` and `AbsYields`, for every statement on a result. -/
theorem witness_yields (a b : Word) :
    ((State.reset.writeReg 1 a).writeReg 2 b).readReg 1 = a ∧ ((State.reset.writeReg 1 a).writeReg 2 b).readReg 2 = b := by
  constructor
  · rw [readReg_writeReg_of_ne _ _ (by decide), readReg_writeReg_same]; rfl
  · rw [readReg_writeReg_same]; rfl

/-- OpcodeMapSelectsTheTen: a word for each of the ten pairs. -/
theorem witness_opcodeMap : ([0x0073028B#32, 0x0073128B#32, 0x0073228B#32, 0x02C5850B#32, 0x02C5950B#32, 0x02C5A50B#32,
    0x02A4B40B#32, 0x0518078B#32, 0x0518178B#32, 0x060A8A0B#32].map fun w => (pairOf w, opcodeOf w)) =
    tenPairs.map fun p => (p, 0b0001011#7) := by decide

/-- ReservedEncodingsByRange: the ends of each range are reserved and their neighbours below are not. -/
theorem witness_reserved_ranges :
    ([(0, 3), (0, 7), (1, 4), (1, 7), (2, 2), (2, 7), (3, 1), (3, 7), (4, 0), (127, 7)].all fun p =>
      (opcodeMap (BitVec.ofNat 7 p.1) (BitVec.ofNat 3 p.2)).isNone) = true ∧
    ([(0, 2), (1, 3), (2, 1), (3, 0)].all fun p =>
      (opcodeMap (BitVec.ofNat 7 p.1) (BitVec.ofNat 3 p.2)).isSome) = true := by decide

/-- AbsIgnoresItsRs2Field: a word with a non-zero field, and a register that is not rs1. -/
theorem witness_abs_field : opcodeOf 0x07FA8A0B#32 = 0b0001011#7 ∧ funct7Of 0x07FA8A0B#32 = 0b0000011#7 ∧
    funct3Of 0x07FA8A0B#32 = 0b000#3 ∧ rs2Of 0x07FA8A0B#32 = 31#5 ∧ (15#5 : RegNum) ≠ 21#5 := by decide

/-- EncodeInvertsDecode: a word of each case. -/
theorem witness_encode_inverts : decode 0x0073028B#32 = .instr (.andn 5 6 7) ∧ funct7Of 0x0073028B#32 ≠ 0b0000011#7 ∧
    decode 0x06FA8A0B#32 = .instr (.abs 20 21) ∧ funct7Of 0x06FA8A0B#32 = 0b0000011#7 ∧ rs2Of 0x06FA8A0B#32 ≠ 0b00000#5 ∧
    decode 0x060A8A0B#32 = .instr (.abs 20 21) ∧ rs2Of 0x060A8A0B#32 = 0b00000#5 := by decide

/-- AbsIsWrittenWithTwoOperands: a line that yields a word. -/
theorem witness_assembleWord : assembleWord "abs x31,x0".toList = some (encode (.abs 31 0)) := by decide

/-- X0IsHardwiredToZero: an instruction whose rd is x0. -/
theorem witness_dest_x0 : (Instr.andn 0 5 5).dest = 0#5 := by decide

/-- AbsResult: an operand other than the most negative one, and one with bit 31 clear. -/
theorem witness_abs_operands : (0x80000001#32 : Word) ≠ 0x80000000#32 ∧ (0x7FFFFFFF#32 : Word).getLsbD 31 = false := by decide

/-- OnlyDestinationAndPcChange, InstructionsIgnoreMemory, PcAdvancesByFour: an instruction that completes from an aligned pc
at the top, with a register that is not its destination. -/
theorem witness_exec_next : (∃ t, exec (.andn 5 6 7) (stateAt 0xFFFFFFFC#32 []) = .next t) ∧
    PcAligned (stateAt 0xFFFFFFFC#32 []) ∧ (6#5 : RegNum) ≠ (Instr.andn 5 6 7).dest :=
  ⟨⟨_, rfl⟩, by unfold PcAligned; decide, by decide⟩

/-- ResultDependsOnSourcesOnly: two different states that agree on the sources. -/
theorem witness_same_sources : (stateAt 0#32 [(6, 1#32), (7, 2#32)]).readReg (Instr.andn 5 6 7).src1 =
      (stateAt 8#32 [(6, 1#32), (7, 2#32), (8, 9#32)]).readReg (Instr.andn 5 6 7).src1 ∧
    (stateAt 0#32 [(6, 1#32), (7, 2#32)]).readReg 7 = (stateAt 8#32 [(6, 1#32), (7, 2#32), (8, 9#32)]).readReg 7 ∧
    stateAt 0#32 [(6, 1#32), (7, 2#32)] ≠ stateAt 8#32 [(6, 1#32), (7, 2#32), (8, 9#32)] := by decide

/-- RotationUsesFiveBitsOfRs2: two distances that differ above bit 4. -/
theorem witness_five_bits : ((stateAt 0#32 [(7, 0x00000004#32)]).readReg 7).extractLsb' 0 5 =
      ((stateAt 0#32 [(7, 0xFFFFFFE4#32)]).readReg 7).extractLsb' 0 5 ∧
    (stateAt 0#32 [(7, 0x00000004#32)]).readReg 6 = (stateAt 0#32 [(7, 0xFFFFFFE4#32)]).readReg 6 ∧
    (stateAt 0#32 [(7, 0x00000004#32)]).readReg 7 ≠ (stateAt 0#32 [(7, 0xFFFFFFE4#32)]).readReg 7 := by decide

/-- The state of the step witnesses: an ANDN at the last word of the space. -/
def topState : State := placeAtPc .little (stateAt 0xFFFFFFFC#32 []) 0x0073028B#32

theorem topState_holds : HoldsWord topState topState.pc 0x0073028B#32 := by unfold HoldsWord; decide

/-- StepRunsTheDecodedInstruction, SafeStepsAreRvx10Steps, FetchIsLittleEndian, PlacedWordIsFetched. -/
theorem witness_step : PcAligned topState ∧ HoldsWord topState topState.pc 0x0073028B#32 ∧
    decode 0x0073028B#32 = .instr (.andn 5 6 7) ∧ (Instr.andn 5 6 7).wellFormed = true ∧
    (0#32 ≠ topState.pc ∧ 0#32 ≠ topState.pc + 1#32 ∧ 0#32 ≠ topState.pc + 2#32 ∧ 0#32 ≠ topState.pc + 3#32) :=
  ⟨by unfold PcAligned; decide, topState_holds, by decide, by decide, by decide⟩

/-- StepChecksInOrder, first clause: the three misaligned positions of the pc, 1 to 3, and not 4. -/
theorem witness_misaligned : ¬ PcAligned (stateAt 1#32 []) ∧ ¬ PcAligned (stateAt 2#32 []) ∧
    ¬ PcAligned (stateAt 3#32 []) ∧ PcAligned (stateAt 4#32 []) := by unfold PcAligned; decide

/-- StepChecksInOrder, second clause: only the last of the four bytes is unbacked. -/
theorem witness_unbacked : PcAligned { State.reset with mem := [(0, 0x8B#8), (1, 2#8), (2, 0x73#8)] } ∧
    SomeByteUnbacked { State.reset with mem := [(0, 0x8B#8), (1, 2#8), (2, 0x73#8)] } 0#32 := by
  unfold PcAligned SomeByteUnbacked; decide

/-- StepChecksInOrder, third clause: a word of each kind, at the edges of the opcode map. -/
theorem witness_words : opcodeOf 0x0000000A#32 ≠ 0b0001011#7 ∧
    (opcodeOf 0x0000300B#32 = 0b0001011#7 ∧ pairOf 0x0000300B#32 ∉ tenPairs) ∧
    (opcodeOf 0x0000200B#32 = 0b0001011#7 ∧ pairOf 0x0000200B#32 ∈ tenPairs) := by decide

theorem witness_holds_other : HoldsWord (placeAtPc .little State.reset 0x0000000A#32) 0#32 0x0000000A#32 ∧
    HoldsWord (placeAtPc .little State.reset 0x0000300B#32) 0#32 0x0000300B#32 := by unfold HoldsWord; decide

/-- StepKeepsGoodOrder and AnyBaseStepKeepsGoodOrder: a state in good order with a next state, and a `BaseStep` that
keeps good order and answers a next state. -/
theorem witness_good_order : GoodOrder topState ∧ (∃ t, step topState = .next t) ∧
    ∀ (w : Word) (s t : State), opcodeOf w ≠ 0b0001011#7 → GoodOrder s →
      (fun (_ : Word) (s : State) => (Host.Outcome.next s : Host.Outcome State Fault Refusal)) w s = .next t → GoodOrder t :=
  ⟨⟨by unfold PcAligned; decide, by decide⟩, ⟨_, rfl⟩, fun _ _ _ _ h e => Host.Outcome.next.inj e ▸ h⟩

/-- BaseStepGetsOtherWordsOnly: a fetch of a word of another opcode, and one of an RVX10 word. -/
theorem witness_fetch_words : fetch .little (placeAtPc .little State.reset 0x00000013#32) = .word 0x00000013#32 ∧
    opcodeOf 0x00000013#32 ≠ 0b0001011#7 ∧ fetch .little topState = .word 0x0073028B#32 ∧
    opcodeOf 0x0073028B#32 = 0b0001011#7 := by decide

/-- RunNeverChangesMemory: a run of one step that answers a next state. -/
theorem witness_run : ∃ t, Host.Core.run core 1 topState = .next t := ⟨_, rfl⟩

/-- StraightLineRunCompletes: one word of RVX10 from an aligned pc, at the top of the space. -/
theorem witness_straight_line : PcAligned topState ∧ NextWordsAreRvx10 topState 1 := by
  refine ⟨by unfold PcAligned; decide, fun k hk => ?_⟩
  obtain rfl : k = 0 := by omega
  exact ⟨0x0073028B#32, .andn 5 6 7, topState_holds, by decide⟩

/-- StopsAreTerminal: a run that is still going at a state whose step faults, and one whose step is refused. -/
theorem witness_terminal : runUntil (fun _ => false) 0 State.reset = .running State.reset ∧
    step State.reset = .fault (.fetchAccess 0#32) ∧
    step (placeAtPc .little State.reset 0x00000013#32) = .refused (.baseRefused 0x00000013#32) := ⟨rfl, rfl, rfl⟩

/-- Two steps under a supplied `BaseStep` and the big-endian override, in one run with `EndOfRun` (R7): the base word at
0xFFFFFFF8 goes to `BaseStep`, here one that only advances the pc, then the ANDN runs and the run is over at the wrap. -/
theorem test_run_every_parameter :
    (match runFromLaunch .big (fun _ s => .next s.advancePc) (endOfRun 0xFFFFFFF8#32 2) (Vector.replicate 31 0xFFFFFFFF#32)
        0xFFFFFFF8#32 [(0xFFFFFFF8, 0#8), (0xFFFFFFF9, 0#8), (0xFFFFFFFA, 0#8), (0xFFFFFFFB, 0x13#8),
          (0xFFFFFFFC, 0#8), (0xFFFFFFFD, 0x73#8), (0xFFFFFFFE, 0x02#8), (0xFFFFFFFF, 0x8B#8)] 9 with
      | .over t => some (t.pc, t.readReg 5)
      | _ => none) = some (0#32, 0#32) := by decide

/-- UnrefusedRunIgnoresBaseStep: a run of one step that nothing refuses. -/
theorem witness_unrefused : ∀ w, runWith .little baseStep (fun _ => false) 1 topState ≠ .refused (.baseRefused w) := by
  intro w h
  exact RunResult.noConfusion h

/-- StraightLineRunUnderEveryParameter: one word at the top of the space, in either byte order. -/
theorem witness_every_parameter (e : Endian) :
    let m := (placeAtPc e (stateAt 0xFFFFFFFC#32 []) 0x0073028B#32).mem
    PcAligned (State.launch (Vector.replicate 31 0#32) 0xFFFFFFFC#32 m) ∧
    ∀ k, k < 1 → ∃ w i, (State.launch (Vector.replicate 31 0#32) 0xFFFFFFFC#32 m).readWord e
      (0xFFFFFFFC#32 + BitVec.ofNat 32 (4 * k)) = some w ∧ decode w = .instr i := by
  refine ⟨by cases e <;> (unfold PcAligned; decide), fun k hk => ?_⟩
  obtain rfl : k = 0 := by omega
  exact ⟨0x0073028B#32, .andn 5 6 7, by cases e <;> decide, by decide⟩

/-- AnyRunKeepsGoodOrder: a run that is over in some state and one that stands in some state, the `BaseStep` being that of
`witness_good_order`. -/
theorem witness_run_good_order : (∃ t, runWith .little (fun _ s => .next s) (endOfRun 0xFFFFFFFC#32 1) 1 topState = .over t) ∧
    ∃ t, runWith .little (fun _ s => .next s) (fun _ => false) 1 topState = .running t := ⟨⟨_, rfl⟩, ⟨_, rfl⟩⟩

/-- RunIsOverWithoutAFetch: the recommended end at the wrap of the space (90_conflicts.md C6). -/
theorem witness_over : endOfRun 0xFFFFFFE8#32 6 State.reset = true := by decide

/-- SignedReading, MinMaxLaws, MinuResult: operands with equal and with different sign bits. -/
theorem witness_sign_bits : (0x7FFFFFFF#32 : Word).getLsbD 31 = false ∧ (0x80000000#32 : Word).getLsbD 31 = true ∧
    (0x80000000#32 : Word).getLsbD 31 = (0xFFFFFFFF#32 : Word).getLsbD 31 ∧
    (0x80000000#32 : Word).getLsbD 31 ≠ (0x7FFFFFFF#32 : Word).getLsbD 31 := by decide

/-- RotationLaws: the ends of the range of distances. -/
theorem witness_distances : 0 < 32 ∧ 31 < 32 ∧ rotl32 0x80000001#32 31 = 0xC0000000#32 ∧
    rotl32 0x80000001#32 0 = 0x80000001#32 := by decide

/-- LaunchTakesTheParameters: the first and the last stored register. -/
theorem witness_launch : 0 < 31 ∧ 30 < 31 ∧ BitVec.ofNat 5 (30 + 1) = 31#5 := by decide

end Sys2Proof.Tests
end

/-! The state family: x0 as source and as destination (spec/10_state.md R11). -/

namespace Sys2Proof.Machine

/-- The last part of an instruction whose rd is x0 drops the result and only advances the pc (R11, R15). -/
theorem finish_x0 (v : Word) (s : State) : finish 0#5 v s = .next s.advancePc := by
  rw [finish, writeReg_x0]

/-- Whatever an instruction computes, with rd = x0 it completes and only advances the pc (R11). -/
theorem exec_of_dest_x0 {i : Instr} (h : i.dest = 0#5) (s : State) : exec i s = .next s.advancePc := by
  obtain ⟨v, hv⟩ := exec_eq_finish i s
  rw [hv, h, finish_x0]

/-- Settles O15: the two laws of x0 as a register, and for rd = x0 the one form that every instruction has. -/
theorem x0IsHardwiredToZero : Obligations.X0IsHardwiredToZero :=
  ⟨readReg_x0, writeReg_x0, fun _ s h => exec_of_dest_x0 h s⟩

end Sys2Proof.Machine

/-! The encoding family: the fields of a word (spec/30_encoding.md R35 to R37), the opcode map (R39), the ignored field of
ABS (R42). -/

namespace Sys2Proof

open Sys2Proof.Machine

/-- Side by side is shifted and added: the low part has no bit where the high part has one. -/
theorem toNat_append_eq_add {m n : Nat} (x : BitVec m) (y : BitVec n) :
    (x ++ y).toNat = x.toNat * 2 ^ n + y.toNat := by
  rw [BitVec.toNat_append, ← Nat.shiftLeft_add_eq_or_of_lt y.isLt, Nat.shiftLeft_eq]

/-- A slice of a word is a quotient and a remainder of its unsigned reading. -/
theorem toNat_extractLsb'_eq_div_mod (w : Word) (start len : Nat) :
    (w.extractLsb' start len).toNat = w.toNat / 2 ^ start % 2 ^ len := by
  rw [BitVec.extractLsb'_toNat, Nat.shiftRight_eq_div_pow]

/-- Settles O1: the fields are slices, and the top one needs no remainder because nothing stands above it. -/
theorem fieldsTileTheWord : Obligations.FieldsTileTheWord := by
  intro w
  have hf7 : (funct7Of w).toNat = w.toNat / 2 ^ 25 :=
    (toNat_extractLsb'_eq_div_mod w 25 7).trans (Nat.mod_eq_of_lt (by have := w.isLt; omega))
  have hop : (opcodeOf w).toNat = w.toNat % 2 ^ 7 := by
    rw [opcodeOf, toNat_extractLsb'_eq_div_mod, pow_zero, Nat.div_one]
  exact ⟨word_eq_fields w, hf7, toNat_extractLsb'_eq_div_mod w 20 5, toNat_extractLsb'_eq_div_mod w 15 5,
    toNat_extractLsb'_eq_div_mod w 12 3, toNat_extractLsb'_eq_div_mod w 7 5, hop⟩

/-- The number of an assembled word: the sum that R36 writes. -/
theorem toNat_encodeR (f7 : BitVec 7) (rs2 rs1 : RegNum) (f3 : BitVec 3) (rd : RegNum) :
    (encodeR f7 rs2 rs1 f3 rd).toNat = f7.toNat * 2 ^ 25 + rs2.toNat * 2 ^ 20 + rs1.toNat * 2 ^ 15 +
      f3.toNat * 2 ^ 12 + rd.toNat * 2 ^ 7 + 0x0B := by
  have hop : opcodeRvx10.toNat = 0x0B := rfl
  rw [encodeR_eq_append]
  simp only [toNat_append_eq_add, hop]
  omega

/-- Settles O2: the sum by `toNat_encodeR`, the slices by the field laws of an assembled word. -/
theorem wordIsTheSumOfItsFields : Obligations.WordIsTheSumOfItsFields := fun f7 rs2 rs1 f3 rd =>
  ⟨toNat_encodeR f7 rs2 rs1 f3 rd, rfl, funct7Of_encodeR .., rs2Of_encodeR .., rs1Of_encodeR .., funct3Of_encodeR ..,
    rdOf_encodeR .., opcodeOf_encodeR ..⟩

/-- The fields of every encoded instruction, whichever of the ten it is (R36, R37, R42). -/
theorem encodedFields (i : Instr) : Laws.EncodedFields.Statement i := by
  cases i with
  | andn rd rs1 rs2 => exact Laws.EncodedFields.andn rd rs1 rs2
  | orn rd rs1 rs2 => exact Laws.EncodedFields.orn rd rs1 rs2
  | xnor rd rs1 rs2 => exact Laws.EncodedFields.xnor rd rs1 rs2
  | min rd rs1 rs2 => exact Laws.EncodedFields.min rd rs1 rs2
  | max rd rs1 rs2 => exact Laws.EncodedFields.max rd rs1 rs2
  | minu rd rs1 rs2 => exact Laws.EncodedFields.minu rd rs1 rs2
  | maxu rd rs1 rs2 => exact Laws.EncodedFields.maxu rd rs1 rs2
  | rol rd rs1 rs2 => exact Laws.EncodedFields.rol rd rs1 rs2
  | ror rd rs1 rs2 => exact Laws.EncodedFields.ror rd rs1 rs2
  | abs rd rs1 => exact Laws.EncodedFields.abs rd rs1

theorem opcodeOf_encode (i : Instr) : opcodeOf (encode i) = opcodeRvx10 := (encodedFields i).1

/-- A pair that the opcode map lists is one of the ten (R39). -/
theorem pair_mem_tenPairs_of_opcodeMap {f7 : BitVec 7} {f3 : BitVec 3} {mk : RegNum → RegNum → RegNum → Instr}
    (h : opcodeMap f7 f3 = some mk) : (f7.toNat, f3.toNat) ∈ tenPairs := by
  obtain ⟨rfl, rfl, -⟩ | ⟨rfl, rfl, -⟩ | ⟨rfl, rfl, -⟩ | ⟨rfl, rfl, -⟩ | ⟨rfl, rfl, -⟩ | ⟨rfl, rfl, -⟩ |
    ⟨rfl, rfl, -⟩ | ⟨rfl, rfl, -⟩ | ⟨rfl, rfl, -⟩ | ⟨rfl, rfl, -⟩ := opcodeMap_cases h <;> decide

/-- A word with the opcode 0x0B and the codes of an instruction decodes to it, with the registers of its fields (R40). -/
theorem decode_of_codes {w : Word} {f7 : BitVec 7} {f3 : BitVec 3} {mk : RegNum → RegNum → RegNum → Instr}
    (ho : opcodeOf w = opcodeRvx10) (h7 : funct7Of w = f7) (h3 : funct3Of w = f3) (hm : opcodeMap f7 f3 = some mk) :
    decode w = .instr (mk (rdOf w) (rs1Of w) (rs2Of w)) := by
  rw [decode_of_opcode ho, h7, h3, hm]

/-- The pair of a word gives its two codes (R35). -/
theorem codes_of_pairOf {w : Word} {a b : Nat} (h : pairOf w = (a, b)) :
    funct7Of w = BitVec.ofNat 7 a ∧ funct3Of w = BitVec.ofNat 3 b := by
  obtain ⟨rfl, rfl⟩ := Prod.mk.inj h
  exact ⟨by simp, by simp⟩

/-- Decoding by the pair of a word (R39). -/
theorem decode_of_pairOf {w : Word} {a b : Nat} {mk : RegNum → RegNum → RegNum → Instr}
    (ho : opcodeOf w = opcodeRvx10) (hp : pairOf w = (a, b))
    (hm : opcodeMap (BitVec.ofNat 7 a) (BitVec.ofNat 3 b) = some mk) :
    decode w = .instr (mk (rdOf w) (rs1Of w) (rs2Of w)) :=
  decode_of_codes ho (codes_of_pairOf hp).1 (codes_of_pairOf hp).2 hm

/-- Settles O3: what decodes came through the opcode map, and each pair is looked up in it. -/
theorem opcodeMapSelectsTheTen : Obligations.OpcodeMapSelectsTheTen := by
  refine ⟨fun w i h => ?_, opcodeOf_encode, fun w ho => ?_⟩
  · obtain ⟨ho, mk, hm, -⟩ := decode_instr_cases h
    exact ⟨ho, pair_mem_tenPairs_of_opcodeMap hm⟩
  · exact ⟨fun hp => decode_of_pairOf ho hp rfl, fun hp => decode_of_pairOf ho hp rfl,
      fun hp => decode_of_pairOf ho hp rfl, fun hp => decode_of_pairOf ho hp rfl,
      fun hp => decode_of_pairOf ho hp rfl, fun hp => decode_of_pairOf ho hp rfl,
      fun hp => decode_of_pairOf ho hp rfl, fun hp => decode_of_pairOf ho hp rfl,
      fun hp => decode_of_pairOf ho hp rfl, fun hp => decode_of_pairOf ho hp rfl⟩

/-- Assembled fields decode to the instruction of their codes, with their registers (R36, R40). -/
theorem decode_encodeR {f7 : BitVec 7} {f3 : BitVec 3} {mk : RegNum → RegNum → RegNum → Instr}
    (hm : opcodeMap f7 f3 = some mk) (rd rs1 rs2 : RegNum) :
    decode (encodeR f7 rs2 rs1 f3 rd) = .instr (mk rd rs1 rs2) := by
  simpa using decode_of_codes (opcodeOf_encodeR f7 rs2 rs1 f3 rd) (funct7Of_encodeR ..) (funct3Of_encodeR ..) hm

/-- Every instruction is read back from its word (R47). -/
@[simp] theorem decode_encode (i : Instr) : decode (encode i) = .instr i := by
  cases i with
  | andn rd rs1 rs2 => exact decode_encodeR (mk := .andn) rfl rd rs1 rs2
  | orn rd rs1 rs2 => exact decode_encodeR (mk := .orn) rfl rd rs1 rs2
  | xnor rd rs1 rs2 => exact decode_encodeR (mk := .xnor) rfl rd rs1 rs2
  | min rd rs1 rs2 => exact decode_encodeR (mk := .min) rfl rd rs1 rs2
  | max rd rs1 rs2 => exact decode_encodeR (mk := .max) rfl rd rs1 rs2
  | minu rd rs1 rs2 => exact decode_encodeR (mk := .minu) rfl rd rs1 rs2
  | maxu rd rs1 rs2 => exact decode_encodeR (mk := .maxu) rfl rd rs1 rs2
  | rol rd rs1 rs2 => exact decode_encodeR (mk := .rol) rfl rd rs1 rs2
  | ror rd rs1 rs2 => exact decode_encodeR (mk := .ror) rfl rd rs1 rs2
  | abs rd rs1 => exact decode_encodeR (mk := fun rd rs1 _ => .abs rd rs1) rfl rd rs1 0#5

/-- The encoder's words are the canonical ones (R42). -/
theorem isCanonical_encode (i : Instr) : isCanonical (encode i) = true := by simp [isCanonical]

end Sys2Proof

namespace Sys2Proof.Machine

/-- The arm of ABS: it reads rs1 alone (R42, R69). -/
theorem exec_abs (rd rs1 : RegNum) (s : State) : exec (.abs rd rs1) s = finish rd (absOf (s.readReg rs1)) s := rfl

/-- An instruction leaves every register but its destination alone (R12). -/
theorem readReg_of_exec_next {i : Instr} {s t : State} (h : exec i s = .next t) {r : RegNum} (hr : r ≠ i.dest) :
    t.readReg r = s.readReg r := by
  obtain ⟨v, rfl⟩ := exec_next_cases h
  rw [readReg_advancePc, readReg_writeReg_of_ne s v hr]

/-- The result of ABS does not depend on a register that is not its source (R42). -/
theorem exec_abs_writeReg_of_ne (s : State) (rd : RegNum) {rs1 r : RegNum} (v : Word) (h : r ≠ rs1) :
    ∃ t t', exec (.abs rd rs1) s = .next t ∧ exec (.abs rd rs1) (s.writeReg r v) = .next t' ∧
      t'.readReg rd = t.readReg rd := by
  have hread : (s.writeReg r v).readReg rs1 = s.readReg rs1 := readReg_writeReg_of_ne s v h.symm
  obtain ⟨t, ht, htrd, -⟩ := finish_spec rd (absOf (s.readReg rs1)) s
  obtain ⟨t', ht', htrd', -⟩ := finish_spec rd (absOf (s.readReg rs1)) (s.writeReg r v)
  refine ⟨t, t', ht, ?_, htrd'.trans htrd.symm⟩
  rw [exec_abs, hread, ht']

/-- Settles O6: the opcode map drops the field, the encoder clears it, and the arm of ABS has no second source. -/
theorem absIgnoresItsRs2Field : Obligations.AbsIgnoresItsRs2Field :=
  ⟨fun _ ho h7 h3 => decode_of_codes ho h7 h3 rfl, fun _ _ => rs2Of_encodeR ..,
    fun s rd _ _ v h => exec_abs_writeReg_of_ne s rd v h, fun _ _ _ _ h _ hr => readReg_of_exec_next h hr⟩

end Sys2Proof.Machine

/-! The assembler (spec/30_encoding.md R48 to R51): what a printed line reads as. -/

namespace Sys2Proof.Machine

/-! ### Operand text -/

/-- The source registers of an instruction in the order of its text: two, one for ABS (R48, R49). -/
def sourceList (i : Instr) : List RegNum := i.src1 :: i.src2.toList

/-- Register operands with a separator between them, at least one operand. -/
def regsText (separator : List Char) : RegNum → List RegNum → List Char
  | r, [] => regText r
  | r, q :: qs => regText r ++ separator ++ regsText separator q qs

/-- The operand text of an instruction is its registers with separators, rd first (R48). -/
theorem operandText_eq_regsText (separator : List Char) (i : Instr) :
    operandText separator i = regsText separator i.dest (sourceList i) := by
  unfold operandText sourceList
  cases i.src2 <;> simp [regsText]

/-- A comma and the spaces that may follow it (R48). -/
def commaSpaces (k : Nat) : List Char := ',' :: List.replicate k ' '

theorem isDigit_digit : ∀ n < 10, (digit n).isDigit = true := by decide

/-- A number of at most two digits is written in digits (R50). -/
theorem isDigit_of_mem_decimal {n : Nat} (hn : n < 100) {c : Char} (h : c ∈ decimal n) : c.isDigit = true := by
  unfold decimal at h
  split at h
  · next hlt => exact List.mem_singleton.mp h ▸ isDigit_digit n hlt
  · obtain rfl | hc := List.mem_cons.mp h
    · exact isDigit_digit _ (by omega)
    · exact List.mem_singleton.mp hc ▸ isDigit_digit _ (by omega)

/-- A register operand is a letter and digits (R50). -/
theorem isAlphanum_of_mem_regText {r : RegNum} {c : Char} (h : c ∈ regText r) : c.isAlphanum = true := by
  obtain rfl | hd := List.mem_cons.mp h
  · decide
  · have hdigit : c.isDigit = true := isDigit_of_mem_decimal (by have := r.isLt; omega) hd
    simp [Char.isAlphanum, hdigit]

/-- The characters that the reader cuts at are neither letters nor digits, so a letter or a digit is none of them. -/
theorem ne_of_isAlphanum {c d : Char} (hc : c.isAlphanum = true) (hd : d.isAlphanum = false) : c ≠ d := by
  rintro rfl
  exact Bool.false_ne_true (hd.symm.trans hc)

theorem readDecimal_decimal : ∀ r : RegNum, readDecimal (decimal r.toNat) = some r.toNat := by decide

/-- The last character of a register operand, a digit, is no space. -/
theorem getLast?_regText (r : RegNum) : ∃ c, (regText r).getLast? = some c ∧ c ≠ ' ' := by
  have hne : regText r ≠ [] := List.cons_ne_nil _ _
  exact ⟨_, List.getLast?_eq_some_getLast hne,
    ne_of_isAlphanum (isAlphanum_of_mem_regText (List.getLast_mem hne)) (by decide)⟩

theorem getLast?_regsText (separator : List Char) (r : RegNum) (rs : List RegNum) :
    ∃ c, (regsText separator r rs).getLast? = some c ∧ c ≠ ' ' := by
  induction rs generalizing r with
  | nil => exact getLast?_regText r
  | cons q qs ih =>
    obtain ⟨c, hc, hne⟩ := ih q
    exact ⟨c, by simp [regsText, List.getLast?_append, hc], hne⟩

/-- No operand text holds the start of a comment. -/
theorem ne_hash_of_mem_regsText {k : Nat} {r : RegNum} {rs : List RegNum} {c : Char}
    (h : c ∈ regsText (commaSpaces k) r rs) : c ≠ '#' := by
  induction rs generalizing r with
  | nil => exact ne_of_isAlphanum (isAlphanum_of_mem_regText h) (by decide)
  | cons q qs ih =>
    simp only [regsText, List.mem_append] at h
    obtain (hr | hs) | hq := h
    · exact ne_of_isAlphanum (isAlphanum_of_mem_regText hr) (by decide)
    · obtain rfl | hs := List.mem_cons.mp hs
      · decide
      · rw [List.eq_of_mem_replicate hs]; decide
    · exact ih hq

/-- An operand text begins with its first register's `x`. -/
theorem regsText_eq_cons (separator : List Char) (r : RegNum) (rs : List RegNum) :
    ∃ cs, regsText separator r rs = 'x' :: cs := by
  cases rs <;> exact ⟨_, rfl⟩

/-! ### Reading operands -/

/-- Leading spaces are dropped, whatever their number. -/
theorem dropSpaces_replicate (k : Nat) (cs : List Char) :
    dropSpaces (List.replicate k ' ' ++ cs) = dropSpaces cs :=
  List.dropWhile_append_of_pos fun _ h => by simp [List.eq_of_mem_replicate h]

theorem trimEnd_of_getLast? {cs : List Char} {c : Char} (h : cs.getLast? = some c) (hc : c ≠ ' ') :
    trimEnd cs = cs := by
  obtain ⟨init, rfl⟩ := List.getLast?_eq_some_iff.mp h
  exact List.rdropWhile_concat_neg (· == ' ') init c (by simpa using hc)

theorem splitCommas_cons {c : Char} (hc : c ≠ ',') {cs piece : List Char} {pieces : List (List Char)}
    (h : splitCommas cs = piece :: pieces) : splitCommas (c :: cs) = (c :: piece) :: pieces := by
  rw [splitCommas.eq_3 c cs hc, h]

/-- Text without a comma goes to the first piece. -/
theorem splitCommas_append {front cs piece : List Char} {pieces : List (List Char)} (hf : ∀ c ∈ front, c ≠ ',')
    (h : splitCommas cs = piece :: pieces) : splitCommas (front ++ cs) = (front ++ piece) :: pieces := by
  induction front with
  | nil => exact h
  | cons c front ih =>
    obtain ⟨hc, hf⟩ := List.forall_mem_cons.mp hf
    exact splitCommas_cons hc (ih hf)

theorem splitCommas_of_no_comma {cs : List Char} (h : ∀ c ∈ cs, c ≠ ',') : splitCommas cs = [cs] := by
  simpa using splitCommas_append h (cs := []) rfl

/-- A comma ends a piece. -/
theorem splitCommas_append_comma {front : List Char} (hf : ∀ c ∈ front, c ≠ ',') (cs : List Char) :
    splitCommas (front ++ ',' :: cs) = front :: splitCommas cs := by
  simpa using splitCommas_append hf (cs := ',' :: cs) rfl

/-- A register operand after any number of spaces. -/
def spacedReg (k : Nat) (r : RegNum) : List Char := List.replicate k ' ' ++ regText r

/-- A register operand is read with the spaces before it (R48, R50). -/
theorem readReg_spacedReg (k : Nat) (r : RegNum) : readReg (spacedReg k r) = some r.toNat := by
  have hx : dropSpaces (spacedReg k r) = 'x' :: decimal r.toNat := dropSpaces_replicate k (regText r)
  rw [readReg, hx]
  exact readDecimal_decimal r

theorem ne_comma_of_mem_spacedReg {k : Nat} {r : RegNum} {c : Char} (h : c ∈ spacedReg k r) : c ≠ ',' := by
  obtain hs | hr := List.mem_append.mp h
  · rw [List.eq_of_mem_replicate hs]; decide
  · exact ne_of_isAlphanum (isAlphanum_of_mem_regText hr) (by decide)

theorem readRegs_cons {piece : List Char} {pieces : List (List Char)} {n : Nat} {ns : List Nat}
    (h : readReg piece = some n) (hs : readRegs pieces = some ns) : readRegs (piece :: pieces) = some (n :: ns) := by
  rw [readRegs, h, hs]

/-- An operand text is read as the numbers of its registers. The spaces `j` before the first operand are those that the
comma before it leaves, which is what the induction runs on. -/
theorem readRegs_splitCommas (k j : Nat) (r : RegNum) (rs : List RegNum) :
    readRegs (splitCommas (List.replicate j ' ' ++ regsText (commaSpaces k) r rs)) =
      some ((r :: rs).map BitVec.toNat) := by
  induction rs generalizing j r with
  | nil =>
    have hp : splitCommas (spacedReg j r) = [spacedReg j r] :=
      splitCommas_of_no_comma fun _ => ne_comma_of_mem_spacedReg
    exact hp ▸ readRegs_cons (readReg_spacedReg j r) rfl
  | cons q qs ih =>
    have hline : List.replicate j ' ' ++ regsText (commaSpaces k) r (q :: qs) =
        spacedReg j r ++ ',' :: (List.replicate k ' ' ++ regsText (commaSpaces k) q qs) := by
      simp [regsText, spacedReg, commaSpaces]
    rw [hline, splitCommas_append_comma fun _ => ne_comma_of_mem_spacedReg]
    exact readRegs_cons (readReg_spacedReg j r) (ih k q)

/-! ### Reading a line -/

/-- A text spells a mnemonic in lower or in upper case (R48, C3). -/
def Spells (name : List Char) (m : String) : Prop := name = m.toList ∨ name = m.toList.map Char.toUpper

/-- Both spellings of each mnemonic are read as it (R48, C3). -/
theorem readMnemonic_of_spells {name : List Char} {m : String} (hm : m ∈ mnemonics) (h : Spells name m) :
    readMnemonic name = some m := by
  have hall : ∀ m ∈ mnemonics, readMnemonic m.toList = some m ∧ readMnemonic (m.toList.map Char.toUpper) = some m := by
    decide
  obtain ⟨hlower, hupper⟩ := hall m hm
  obtain rfl | rfl := h
  · exact hlower
  · exact hupper

/-- A mnemonic is spelled in letters. -/
theorem isAlphanum_of_mem_spelling {name : List Char} {m : String} (hm : m ∈ mnemonics) (h : Spells name m) {c : Char}
    (hc : c ∈ name) : c.isAlphanum = true := by
  have hall : ∀ m ∈ mnemonics,
      m.toList.all Char.isAlphanum = true ∧ (m.toList.map Char.toUpper).all Char.isAlphanum = true := by decide
  obtain ⟨hlower, hupper⟩ := hall m hm
  obtain rfl | rfl := h
  · exact List.all_eq_true.mp hlower c hc
  · exact List.all_eq_true.mp hupper c hc

/-- A line without a comment and without trailing spaces is split at its first space (R48). -/
theorem readLine_of_parts {name body : List Char} {c : Char} {m : String} {ns : List Nat}
    (hn : ∀ c ∈ name, c.isAlphanum = true) (hb : ∀ c ∈ body, c ≠ '#') (hlast : body.getLast? = some c) (hc : c ≠ ' ')
    (hm : readMnemonic name = some m) (hr : readRegs (splitCommas (dropSpaces body)) = some ns) :
    readLine (name ++ ' ' :: body) = some ⟨m, ns⟩ := by
  have hcut : (name ++ ' ' :: body).takeWhile (· != '#') = name ++ ' ' :: body := by
    refine List.takeWhile_eq_self_iff.mpr fun d hd => ?_
    obtain hd | hd := List.mem_append.mp hd
    · simpa using ne_of_isAlphanum (hn d hd) (by decide)
    · obtain rfl | hd := List.mem_cons.mp hd
      · decide
      · simpa using hb d hd
  have htrim : trimEnd (name ++ ' ' :: body) = name ++ ' ' :: body :=
    trimEnd_of_getLast? (c := c) (by simp [List.getLast?_append, List.getLast?_cons, hlast]) hc
  have hpos : ∀ d ∈ name, (d != ' ') = true := fun d hd => by simpa using ne_of_isAlphanum (hn d hd) (by decide)
  have hname : (name ++ ' ' :: body).takeWhile (· != ' ') = name := by simp [List.takeWhile_append_of_pos hpos]
  have hrest : (name ++ ' ' :: body).dropWhile (· != ' ') = ' ' :: body := by simp [List.dropWhile_append_of_pos hpos]
  have hdrop : dropSpaces (' ' :: body) = dropSpaces body := dropSpaces_replicate 1 body
  simp only [readLine, hcut, htrim, hname, hrest, hdrop, hm, hr]

/-- A mnemonic in either case, a space and operands with any spaces after the commas: the line is read (R48). -/
theorem readLine_regsText {name : List Char} {m : String} (hm : m ∈ mnemonics) (h : Spells name m) (k : Nat)
    (r : RegNum) (rs : List RegNum) :
    readLine (name ++ ' ' :: regsText (commaSpaces k) r rs) = some ⟨m, (r :: rs).map BitVec.toNat⟩ := by
  obtain ⟨c, hlast, hc⟩ := getLast?_regsText (commaSpaces k) r rs
  obtain ⟨cs, hx⟩ := regsText_eq_cons (commaSpaces k) r rs
  have hdrop : dropSpaces (regsText (commaSpaces k) r rs) = regsText (commaSpaces k) r rs := by rw [hx]; rfl
  refine readLine_of_parts (fun _ => isAlphanum_of_mem_spelling hm h) (fun _ => ne_hash_of_mem_regsText) hlast hc
    (readMnemonic_of_spells hm h) ?_
  rw [hdrop]
  exact readRegs_splitCommas k 0 r rs

theorem assembleLine_of_readLine {line : List Char} {l : AsmLine} (h : readLine line = some l) :
    assembleLine line = instrOfLine l := by
  rw [assembleLine, h]

theorem mnemonic_mem (i : Instr) : i.mnemonic ∈ mnemonics := by
  cases i <;> simp [mnemonics, Instr.mnemonic]

/-- The line that an instruction prints as stands for it (R48, R49). -/
theorem instrOfLine_of_instr (i : Instr) :
    instrOfLine ⟨i.mnemonic, (i.dest :: sourceList i).map BitVec.toNat⟩ = some i := by
  cases i <;>
    simp [instrOfLine, AsmLine.wellFormed, operandCount, mnemonics, sourceList, Instr.mnemonic, Instr.dest,
      Instr.src1, Instr.src2, Laws.regExists_toNat]

/-- Either spelling of an instruction, with any number of spaces after the commas, yields it (R48). -/
theorem assembleLine_of_spells {name : List Char} {i : Instr} (h : Spells name i.mnemonic) (k : Nat) :
    assembleLine (name ++ [' '] ++ operandText (commaSpaces k) i) = some i := by
  have hline : name ++ [' '] ++ operandText (commaSpaces k) i =
      name ++ ' ' :: regsText (commaSpaces k) i.dest (sourceList i) := by
    rw [operandText_eq_regsText, List.append_assoc, List.singleton_append]
  rw [hline, assembleLine_of_readLine (readLine_regsText (mnemonic_mem i) h k _ _)]
  exact instrOfLine_of_instr i

/-- Settles O11: every line of these spellings is read back, and the worked lines are evaluated. -/
theorem assemblerReadsBothSpellings : Obligations.AssemblerReadsBothSpellings :=
  ⟨fun _ k => ⟨assembleLine_of_spells (.inl rfl) k, assembleLine_of_spells (.inr rfl) k⟩, fun _ => rfl,
    fun _ _ _ => by simp [operandText, Instr.dest, Instr.src1, Instr.src2], by decide, by decide⟩

/-! ### ABS has two operands -/

/-- A line with the wrong number of operands stands for no instruction (R48, R49). -/
theorem instrOfLine_of_operandCount_ne {l : AsmLine} (h : operandCount l.mnemonic ≠ some l.operands.length) :
    instrOfLine l = none := by
  simp [instrOfLine, AsmLine.wellFormed, h]

/-- `abs` with three register operands is no instruction (R49). -/
theorem assembleLine_abs_three_operands (rd rs1 rs2 : RegNum) :
    assembleLine ("abs".toList ++ ' ' :: regsText (commaSpaces 0) rd [rs1, rs2]) = none := by
  rw [assembleLine_of_readLine (readLine_regsText (m := "abs") (by decide) (.inl rfl) 0 rd [rs1, rs2])]
  exact instrOfLine_of_operandCount_ne (by simp [operandCount])

/-- Assembly yields words of the encoder only (R51). -/
theorem isCanonical_of_assembleWord {line : List Char} {w : Word} (h : assembleWord line = some w) :
    isCanonical w = true := by
  obtain ⟨i, -, rfl⟩ := Option.map_eq_some_iff.mp h
  exact isCanonical_encode i

/-- Settles O12: two operands are the printed form of ABS, three are one too many for it, and every assembled word is the
encoder's. -/
theorem absIsWrittenWithTwoOperands : Obligations.AbsIsWrittenWithTwoOperands := by
  refine ⟨fun rd rs1 => ⟨?_, rs2Of_encodeR ..⟩, fun rd rs1 rs2 => ?_, fun _ _ => isCanonical_of_assembleWord⟩
  · have hline : assembleLine ("abs ".toList ++ regText rd ++ [','] ++ regText rs1) = some (.abs rd rs1) := by
      simpa [operandText, commaSpaces, Instr.mnemonic, Instr.dest, Instr.src1, Instr.src2] using
        assembleLine_of_spells (name := "abs".toList) (i := .abs rd rs1) (.inl rfl) 0
    rw [assembleWord, hline, Option.map_some]
  · simpa [regsText, commaSpaces] using assembleLine_abs_three_operands rd rs1 rs2

end Sys2Proof.Machine

/-! The bitwise family: exactly which words an instruction of two register operands is (spec/30_encoding.md R44), what such
an instruction completes with (spec/10_state.md R12, R13), and ANDN (spec/40_bitwise.md R60). -/

namespace Sys2Proof

open Sys2Proof.Machine

/-! ### Match and mask -/

/-- Two words with the same six fields are the same word (R35). -/
theorem word_ext_fields {w v : Word} (h7 : funct7Of w = funct7Of v) (h2 : rs2Of w = rs2Of v) (h1 : rs1Of w = rs1Of v)
    (h3 : funct3Of w = funct3Of v) (hd : rdOf w = rdOf v) (ho : opcodeOf w = opcodeOf v) : w = v := by
  rw [word_eq_fields w, word_eq_fields v, h7, h2, h1, h3, hd, ho]

/-- Masking keeps the two codes and the opcode of a word. -/
theorem codes_and_rowMask (w : Word) :
    funct7Of (w &&& rowMask) = funct7Of w ∧ funct3Of (w &&& rowMask) = funct3Of w ∧
      opcodeOf (w &&& rowMask) = opcodeOf w :=
  ⟨BitVec.extractLsb'_and.trans BitVec.and_allOnes, BitVec.extractLsb'_and.trans BitVec.and_allOnes,
    BitVec.extractLsb'_and.trans BitVec.and_allOnes⟩

/-- Masking clears the register fields of a word. -/
theorem regs_and_rowMask (w : Word) :
    rs2Of (w &&& rowMask) = 0#5 ∧ rs1Of (w &&& rowMask) = 0#5 ∧ rdOf (w &&& rowMask) = 0#5 :=
  ⟨BitVec.extractLsb'_and.trans BitVec.and_zero, BitVec.extractLsb'_and.trans BitVec.and_zero,
    BitVec.extractLsb'_and.trans BitVec.and_zero⟩

/-- A word matches a row of R44, the word of its codes with empty register fields, when its codes and its opcode do. -/
theorem and_rowMask_eq_iff (w : Word) (f7 : BitVec 7) (f3 : BitVec 3) :
    w &&& rowMask = encodeR f7 0#5 0#5 f3 0#5 ↔ opcodeOf w = opcodeRvx10 ∧ funct7Of w = f7 ∧ funct3Of w = f3 := by
  obtain ⟨h7, h3, ho⟩ := codes_and_rowMask w
  obtain ⟨h2, h1, hd⟩ := regs_and_rowMask w
  constructor
  · intro h
    rw [← ho, ← h7, ← h3, h]
    exact ⟨opcodeOf_encodeR .., funct7Of_encodeR .., funct3Of_encodeR ..⟩
  · rintro ⟨ho', rfl, rfl⟩
    apply word_ext_fields <;> simp [h7, h2, h1, h3, hd, ho, ho']

/-- An instruction of the opcode map is encoded with the codes that select it (R39). -/
theorem codes_encode_of_opcodeMap {f7 : BitVec 7} {f3 : BitVec 3} {mk : RegNum → RegNum → RegNum → Instr}
    (hm : opcodeMap f7 f3 = some mk) (rd rs1 rs2 : RegNum) :
    funct7Of (encode (mk rd rs1 rs2)) = f7 ∧ funct3Of (encode (mk rd rs1 rs2)) = f3 := by
  obtain ⟨rfl, rfl, rfl⟩ | ⟨rfl, rfl, rfl⟩ | ⟨rfl, rfl, rfl⟩ | ⟨rfl, rfl, rfl⟩ | ⟨rfl, rfl, rfl⟩ | ⟨rfl, rfl, rfl⟩ |
    ⟨rfl, rfl, rfl⟩ | ⟨rfl, rfl, rfl⟩ | ⟨rfl, rfl, rfl⟩ | ⟨rfl, rfl, rfl⟩ := opcodeMap_cases hm <;>
    exact ⟨funct7Of_encodeR .., funct3Of_encodeR ..⟩

/-- A word that decodes has the codes of its instruction (R39, R40). -/
theorem codes_of_decode {w : Word} {i : Instr} (h : decode w = .instr i) :
    funct7Of w = funct7Of (encode i) ∧ funct3Of w = funct3Of (encode i) := by
  obtain ⟨-, mk, hm, rfl⟩ := decode_instr_cases h
  obtain ⟨h7, h3⟩ := codes_encode_of_opcodeMap hm (rdOf w) (rs1Of w) (rs2Of w)
  exact ⟨h7.symm, h3.symm⟩

/-- The words of an instruction of the opcode map are those that match its row (R44). -/
theorem encodedAs_of_opcodeMap {f7 : BitVec 7} {f3 : BitVec 3} {mk : RegNum → RegNum → RegNum → Instr}
    (hm : opcodeMap f7 f3 = some mk) : EncodedAs (encodeR f7 0#5 0#5 f3 0#5) mk := by
  refine fun w => (and_rowMask_eq_iff w f7 f3).trans ⟨fun ⟨ho, h7, h3⟩ => decode_of_codes ho h7 h3 hm, fun h => ?_⟩
  obtain ⟨hw7, hw3⟩ := codes_of_decode h
  obtain ⟨h7, h3⟩ := codes_encode_of_opcodeMap hm (rdOf w) (rs1Of w) (rs2Of w)
  exact ⟨(decode_instr_cases h).1, hw7.trans h7, hw3.trans h3⟩

end Sys2Proof

namespace Sys2Proof.Machine

/-! ### Completion -/

/-- An instruction that ends by writing `v` to its destination completes with `v` (R11, R12, R15). -/
theorem completesWriting_of_exec {i : Instr} {s : State} {v : Word} (h : exec i s = finish i.dest v s) :
    CompletesWriting i s v := by
  rw [CompletesWriting, h]
  exact finish_spec i.dest v s

/-- An instruction of two register operands yields its operation on the values they held before (R13). -/
theorem yields_of_binary {mk : RegNum → RegNum → RegNum → Instr} {op : Word → Word → Word}
    (hexec : ∀ rd rs1 rs2 s, exec (mk rd rs1 rs2) s = binary op (mk rd rs1 rs2).dest rs1 rs2 s) (a b : Word) :
    Yields mk a b (op a b) := by
  rintro s rd rs1 rs2 rfl rfl
  exact completesWriting_of_exec (hexec rd rs1 rs2 s)

/-- One outcome shows one result: two instructions with the same destination, not x0, that answer the same next state
complete with the same value. -/
theorem CompletesWriting.result_unique {i j : Instr} {s : State} {v u : Word} (hi : CompletesWriting i s v)
    (hj : CompletesWriting j s u) (hdest : i.dest = j.dest) (hx0 : j.dest ≠ 0#5) (h : exec i s = exec j s) : v = u := by
  obtain ⟨t, ht, hv, -⟩ := hi
  obtain ⟨t', ht', hu, -⟩ := hj
  obtain rfl : t = t' := Host.Outcome.next.inj (ht.symm.trans (h.trans ht'))
  rw [hdest, if_neg hx0] at hv
  rw [if_neg hx0] at hu
  exact hv.symm.trans hu

/-! ### ANDN -/

/-- Bit `i` of `a & ~b` (R60). -/
theorem getLsbD_andn (a b : Word) {i : Nat} (hi : i < 32) :
    (a &&& ~~~b).getLsbD i = true ↔ a.getLsbD i = true ∧ b.getLsbD i = false := by
  simp [hi]

/-- ANDN yields `a & ~b` (R60), in whatever form that value is written. -/
theorem yields_andn {a b v : Word} (hv : a &&& ~~~b = v) : Yields .andn a b v :=
  hv ▸ yields_of_binary (op := andnOf) (fun _ _ _ _ => rfl) a b

/-- The corner cases of R60. -/
theorem yields_andn_corners (a : Word) :
    Yields .andn a 0x00000000#32 a ∧ Yields .andn a 0xFFFFFFFF#32 0#32 ∧ Yields .andn a a 0#32 ∧
      Yields .andn 0#32 a 0#32 :=
  ⟨yields_andn BitVec.and_allOnes, yields_andn BitVec.and_zero, yields_andn (BitVec.and_not_self a),
    yields_andn BitVec.zero_and⟩

/-- ANDN is not commutative: with 1 in x2 and 0 in x3 it gives 1, with the sources swapped 0. -/
theorem andn_not_commutative : ∃ s, exec (.andn 1 2 3) s ≠ exec (.andn 1 3 2) s := by
  refine ⟨State.reset.writeReg 2#5 1#32, fun h => ?_⟩
  have h23 : CompletesWriting (.andn 1 2 3) (State.reset.writeReg 2#5 1#32) 1#32 :=
    yields_andn (a := 1#32) (b := 0#32) rfl _ _ _ _ rfl rfl
  have h32 : CompletesWriting (.andn 1 3 2) (State.reset.writeReg 2#5 1#32) 0#32 :=
    yields_andn (a := 0#32) (b := 1#32) rfl _ _ _ _ rfl rfl
  exact absurd (h23.result_unique h32 rfl (by decide) h) (by decide)

/-- Settles O16: the row of ANDN in the opcode map, and one law of its result for every operand. -/
theorem andnResult : Obligations.AndnResult :=
  ⟨encodedAs_of_opcodeMap (f7 := 0#7) (f3 := 0#3) rfl, fun s rd rs1 rs2 => yields_andn rfl s rd rs1 rs2 rfl rfl,
    fun a b => ⟨_, yields_andn rfl, fun _ hi => getLsbD_andn a b hi⟩, yields_andn_corners, andn_not_commutative, by decide,
    yields_andn (by decide)⟩

end Sys2Proof.Machine

/-! The min/max family (spec/41_minmax.md): MIN and MAXU select the operand whose signed or unsigned reading (R9) is the
minimum or the maximum, and a reading determines its value, so each claim about a result is one about `min` or `max` of
numbers. -/

namespace Sys2Proof.Machine

/-- Swapping the sources of a commutative operation does not show in the outcome. -/
theorem binary_comm {op : Word → Word → Word} (hop : ∀ a b, op a b = op b a) (rd rs1 rs2 : RegNum) (s : State) :
    binary op rd rs1 rs2 s = binary op rd rs2 rs1 s := by
  rw [binary, binary, hop]

/-! ### MIN -/

/-- MIN selects by the signed readings (R63). -/
theorem minOf_eq (a b : Word) : minOf a b = if signed a < signed b then a else b := by
  simp [minOf]

/-- The signed reading of MIN is the minimum of the signed readings. -/
theorem signed_minOf (a b : Word) : signed (minOf a b) = min (signed a) (signed b) := by
  rw [minOf_eq, apply_ite signed, min_def_lt]

theorem minOf_comm (a b : Word) : minOf a b = minOf b a :=
  signed_inj (by rw [signed_minOf, signed_minOf, min_comm])

/-- MIN yields the value whose signed reading is the minimum (R63). -/
theorem yields_min {a b v : Word} (hv : min (signed a) (signed b) = signed v) : Yields .min a b v := by
  have hmin : minOf a b = v := signed_inj ((signed_minOf a b).trans hv)
  exact hmin ▸ yields_of_binary (fun _ _ _ _ => rfl) a b

/-- 0x80000000 is the least signed value (R63). -/
theorem signed_intMin_le (a : Word) : signed 0x80000000#32 ≤ signed a := by
  have hmin : signed 0x80000000#32 = -2 ^ 31 := by decide
  obtain ⟨hbit, -, ha⟩ | ⟨-, -, ha⟩ := signed_cases a <;> omega

/-- 0x7FFFFFFF is the greatest signed value (R63). -/
theorem signed_le_intMax (a : Word) : signed a ≤ signed 0x7FFFFFFF#32 := by
  have hmax : signed 0x7FFFFFFF#32 = 2 ^ 31 - 1 := by decide
  have hlt := a.isLt
  obtain ⟨-, -, ha⟩ | ⟨hbit, -, ha⟩ := signed_cases a <;> omega

/-- MIN with zero clamps from above at zero (R63). -/
theorem yields_min_zero (a : Word) : Yields .min a 0#32 (if signed a < 0 then a else 0#32) := by
  have hzero : signed 0#32 = 0 := by decide
  apply yields_min
  rw [apply_ite signed, hzero, min_def_lt]

/-- The corner cases of R63 that hold for every operand. -/
theorem yields_min_corners (a : Word) :
    Yields .min a a a ∧ Yields .min a 0x80000000#32 0x80000000#32 ∧ Yields .min 0x80000000#32 a 0x80000000#32 ∧
      Yields .min a 0x7FFFFFFF#32 a ∧ Yields .min 0x7FFFFFFF#32 a a ∧
      Yields .min a 0#32 (if signed a < 0 then a else 0#32) :=
  ⟨yields_min (min_self _), yields_min (min_eq_right (signed_intMin_le a)), yields_min (min_eq_left (signed_intMin_le a)),
    yields_min (min_eq_left (signed_le_intMax a)), yields_min (min_eq_right (signed_le_intMax a)), yields_min_zero a⟩

/-- Settles O19: the row of MIN in the opcode map, and its results as minima of signed readings. -/
theorem minResult : Obligations.MinResult :=
  ⟨encodedAs_of_opcodeMap (f7 := 1#7) (f3 := 0#3) rfl,
    fun s rd rs1 rs2 => minOf_eq _ _ ▸ yields_of_binary (fun _ _ _ _ => rfl) _ _ s rd rs1 rs2 rfl rfl,
    yields_min_corners, by decide, yields_min (by decide), yields_min (by decide),
    fun s rd rs1 rs2 => binary_comm minOf_comm rd rs1 rs2 s, by decide, yields_min (by decide)⟩

/-! ### MAXU -/

/-- MAXU selects by the unsigned readings (R66). -/
theorem maxuOf_eq (a b : Word) : maxuOf a b = if b.toNat < a.toNat then a else b := by
  simp [maxuOf]

/-- The unsigned reading of MAXU is the maximum of the unsigned readings. -/
theorem toNat_maxuOf (a b : Word) : (maxuOf a b).toNat = max a.toNat b.toNat := by
  rw [maxuOf_eq, apply_ite BitVec.toNat, max_comm, max_def_lt]

theorem maxuOf_comm (a b : Word) : maxuOf a b = maxuOf b a :=
  BitVec.eq_of_toNat_eq (by rw [toNat_maxuOf, toNat_maxuOf, max_comm])

/-- MAXU yields the value whose unsigned reading is the maximum (R66). -/
theorem yields_maxu {a b v : Word} (hv : max a.toNat b.toNat = v.toNat) : Yields .maxu a b v := by
  have hmax : maxuOf a b = v := BitVec.eq_of_toNat_eq ((toNat_maxuOf a b).trans hv)
  exact hmax ▸ yields_of_binary (fun _ _ _ _ => rfl) a b

/-- The corner cases of R66: 0 is the least and 0xFFFFFFFF the greatest unsigned value. -/
theorem yields_maxu_corners (a : Word) :
    Yields .maxu a a a ∧ Yields .maxu a 0#32 a ∧ Yields .maxu 0#32 a a ∧
      Yields .maxu a 0xFFFFFFFF#32 0xFFFFFFFF#32 ∧ Yields .maxu 0xFFFFFFFF#32 a 0xFFFFFFFF#32 := by
  have hle : a.toNat ≤ (0xFFFFFFFF#32).toNat := Nat.le_pred_of_lt a.isLt
  exact ⟨yields_maxu (max_self _), yields_maxu (Nat.max_zero _), yields_maxu (Nat.zero_max _),
    yields_maxu (max_eq_right hle), yields_maxu (max_eq_left hle)⟩

/-- MAX, against which R66 sets MAXU: its comparison is signed, so 0x80000000 is the smaller operand (R64). -/
theorem yields_max_intMin_intMax : Yields .max 0x80000000#32 0x7FFFFFFF#32 0x7FFFFFFF#32 := by
  have hmax : maxOf 0x80000000#32 0x7FFFFFFF#32 = 0x7FFFFFFF#32 := by decide
  exact hmax ▸ yields_of_binary (fun _ _ _ _ => rfl) 0x80000000#32 0x7FFFFFFF#32

/-- Settles O22: the row of MAXU in the opcode map, and its results as maxima of unsigned readings. -/
theorem maxuResult : Obligations.MaxuResult :=
  ⟨encodedAs_of_opcodeMap (f7 := 1#7) (f3 := 3#3) rfl,
    fun s rd rs1 rs2 => maxuOf_eq _ _ ▸ yields_of_binary (fun _ _ _ _ => rfl) _ _ s rd rs1 rs2 rfl rfl,
    yields_maxu_corners, fun s rd rs1 rs2 => binary_comm maxuOf_comm rd rs1 rs2 s, by decide, yields_maxu (by decide),
    yields_maxu (by decide), yields_maxu (by decide), yields_max_intMin_intMax⟩

end Sys2Proof.Machine

/-! The rotation family (spec/42_rotate.md): a rotation by one of the distances 0 to 31 is the library's `rotateLeft`,
which says where each bit goes, and the operand in rs2 matters through its distance only. -/

namespace Sys2Proof.Machine

/-! ### ROL -/

/-- The distance is the unsigned reading of bits 4 to 0 (R67). -/
theorem distance_eq_toNat_extractLsb' (b : Word) : distance b = (b.extractLsb' 0 5).toNat :=
  BitVec.toNat_setWidth_of_le (by decide)

theorem rotl32_eq_rotateLeft (a : Word) {d : Nat} (hd : d < 32) : rotl32 a d = a.rotateLeft d :=
  (BitVec.rotateLeft_eq_rotateLeftAux_of_lt hd).symm

/-- Rotating by 0 changes nothing: the other half of the formula is a shift by the whole width (C2). -/
theorem rotl32_zero (a : Word) : rotl32 a 0 = a := by
  simp [rotl32, shl, shr, BitVec.ushiftRight_eq_zero]

/-- Bit `i` moves to bit `(i + d) mod 32` (R67): up by `d`, or from the top round to the bottom. -/
theorem getLsbD_rotl32_add_mod (a : Word) {d i : Nat} (hd : d < 32) (hi : i < 32) :
    (rotl32 a d).getLsbD ((i + d) % 32) = a.getLsbD i := by
  rw [rotl32_eq_rotateLeft a hd, BitVec.getLsbD_rotateLeft_of_le hd]
  obtain hup | hround := Nat.lt_or_ge (i + d) 32
  · simp [Nat.mod_eq_of_lt hup, hup]
  · have hmod : (i + d) % 32 = i + d - 32 := by omega
    have hlt : i + d - 32 < d := by omega
    have hsource : 32 - d + (i + d - 32) = i := by omega
    simp [hmod, hlt, hsource]

/-- A value whose bits are all the same is unchanged by every rotation: each bit of the result is one of them. -/
theorem rotl32_eq_self_of_bits_eq {a : Word} {c : Bool} (h : ∀ i < 32, a.getLsbD i = c) {d : Nat} (hd : d < 32) :
    rotl32 a d = a := by
  apply BitVec.eq_of_getLsbD_eq
  intro j hj
  have hsource : ((j + (32 - d)) % 32 + d) % 32 = j := by omega
  have hmoved := getLsbD_rotl32_add_mod a hd (Nat.mod_lt (j + (32 - d)) (by decide))
  rw [hsource] at hmoved
  rw [hmoved, h j hj, h _ (Nat.mod_lt _ (by decide))]

/-- Left by 31 is right by 1 (R67): the same two shifts. -/
theorem rotr32_one_eq_rotl32 (a : Word) : rotr32 a 1 = rotl32 a 31 := BitVec.or_comm _ _

/-- ROL yields the rotation left by its second operand modulo 32 (R67), in whatever form the two are written. -/
theorem yields_rol {a b v : Word} {d : Nat} (hd : b.toNat % 32 = d) (hv : rotl32 a d = v) : Yields .rol a b v := by
  have hrol : rolOf a b = v := by rw [rolOf, distance_eq_mod, hd, hv]
  exact hrol ▸ yields_of_binary (fun _ _ _ _ => rfl) a b

/-- ROL yields the rotation left by bits 4 to 0 of its second operand (R67). -/
theorem yields_rol_extractLsb' (a b : Word) : Yields .rol a b (rotl32 a (b.extractLsb' 0 5).toNat) :=
  yields_rol ((distance_eq_mod b).symm.trans (distance_eq_toNat_extractLsb' b)) rfl

/-- ROR yields the rotation right by its second operand modulo 32 (R68). -/
theorem yields_ror {a b v : Word} {d : Nat} (hd : b.toNat % 32 = d) (hv : rotr32 a d = v) : Yields .ror a b v := by
  have hror : rorOf a b = v := by rw [rorOf, distance_eq_mod, hd, hv]
  exact hror ▸ yields_of_binary (fun _ _ _ _ => rfl) a b

/-- The corner cases of R67 in the distance, for every operand. -/
theorem yields_rol_distances (a : Word) :
    Yields .rol a 0#32 a ∧ Yields .rol a 32#32 a ∧ Yields .rol a 64#32 a ∧
      (∃ v, Yields .rol a 33#32 v ∧ Yields .rol a 1#32 v) ∧
      (∃ v, Yields .rol a 0xFFFFFFFF#32 v ∧ Yields .rol a 31#32 v ∧ Yields .ror a 1#32 v) :=
  ⟨yields_rol rfl (rotl32_zero a), yields_rol rfl (rotl32_zero a), yields_rol rfl (rotl32_zero a),
    ⟨rotl32 a 1, yields_rol rfl rfl, yields_rol rfl rfl⟩,
    ⟨rotl32 a 31, yields_rol rfl rfl, yields_rol rfl rfl, yields_ror rfl (rotr32_one_eq_rotl32 a)⟩⟩

/-- ROL leaves a value whose bits are all the same as it is, for every distance (R67). -/
theorem yields_rol_of_bits_eq {a : Word} {c : Bool} (h : ∀ i < 32, a.getLsbD i = c) (b : Word) : Yields .rol a b a :=
  yields_rol rfl (rotl32_eq_self_of_bits_eq h (Nat.mod_lt _ (by decide)))

/-- The corner cases of R67 in the rotated value, for every distance. -/
theorem yields_rol_zero_allOnes (b : Word) : Yields .rol 0#32 b 0#32 ∧ Yields .rol 0xFFFFFFFF#32 b 0xFFFFFFFF#32 :=
  ⟨yields_rol_of_bits_eq (c := false) (by decide) b, yields_rol_of_bits_eq (c := true) (by decide) b⟩

/-- Settles O23: the row of ROL in the opcode map, the formula as it stands, and where each bit goes. -/
theorem rolResult : Obligations.RolResult := by
  refine ⟨encodedAs_of_opcodeMap (f7 := 2#7) (f3 := 0#3) rfl,
    fun s rd rs1 rs2 => yields_rol_extractLsb' _ _ s rd rs1 rs2 rfl rfl,
    fun a b => ⟨_, yields_rol_extractLsb' a b, ?_⟩, yields_rol_distances, yields_rol_zero_allOnes, by decide,
    yields_rol rfl (by decide), yields_rol rfl (by decide)⟩
  rintro _ rfl
  exact ⟨fun _ => rfl, fun h0 => (congrArg (rotl32 a) h0).trans (rotl32_zero a),
    fun _ hi => getLsbD_rotl32_add_mod a (b.extractLsb' 0 5).isLt hi⟩

end Sys2Proof.Machine

/-! The three outcomes of decoding (spec/30_encoding.md R40, R43), the match and mask table (R44) and the round trips (R47). -/

namespace Sys2Proof

open Sys2Proof.Machine

/-! ### Encode, then decode -/

theorem wellFormed_instr (i : Instr) : i.wellFormed = true := by
  obtain ⟨-, -, -, -, h⟩ := encodedFields i
  exact h

/-- Settles O8: the round trip of the encoding family, and register numbers of five bits all exist. -/
theorem decodeInvertsEncode : Obligations.DecodeInvertsEncode := fun i => ⟨wellFormed_instr i, decode_encode i⟩

/-! ### The three outcomes -/

/-- The ten pairs fit into their two fields (R35). -/
theorem tenPairs_lt : ∀ p ∈ tenPairs, p.1 < 2 ^ 7 ∧ p.2 < 2 ^ 3 := by decide

/-- The opcode map lists every one of the ten pairs (R39). -/
theorem opcodeMap_of_mem_tenPairs {f7 : BitVec 7} {f3 : BitVec 3} (h : (f7.toNat, f3.toNat) ∈ tenPairs) :
    ∃ mk, opcodeMap f7 f3 = some mk := by
  have hlisted : ∀ p ∈ tenPairs, (opcodeMap (BitVec.ofNat 7 p.1) (BitVec.ofNat 3 p.2)).isSome = true := by decide
  exact Option.isSome_iff_exists.mp (by simpa using hlisted _ h)

theorem opcodeMap_eq_none_iff (f7 : BitVec 7) (f3 : BitVec 3) :
    opcodeMap f7 f3 = none ↔ (f7.toNat, f3.toNat) ∉ tenPairs := by
  constructor
  · intro hnone h
    obtain ⟨mk, hm⟩ := opcodeMap_of_mem_tenPairs h
    simp [hnone] at hm
  · intro h
    cases hm : opcodeMap f7 f3 with
    | none => rfl
    | some mk => exact absurd (pair_mem_tenPairs_of_opcodeMap hm) h

/-- A word of another opcode goes to `BaseStep` (R40). -/
theorem decode_of_opcode_ne {w : Word} (h : opcodeOf w ≠ opcodeRvx10) : decode w = .base w := if_neg h

/-- Under the opcode 0x0B one of the ten pairs selects an instruction (R40). -/
theorem decode_of_mem_tenPairs {w : Word} (ho : opcodeOf w = opcodeRvx10) (h : pairOf w ∈ tenPairs) :
    ∃ i, decode w = .instr i := by
  obtain ⟨mk, hm⟩ := opcodeMap_of_mem_tenPairs h
  exact ⟨_, decode_of_codes ho rfl rfl hm⟩

/-- Under the opcode 0x0B every other pair is reserved (R43). -/
theorem decode_of_not_mem_tenPairs {w : Word} (ho : opcodeOf w = opcodeRvx10) (h : pairOf w ∉ tenPairs) :
    decode w = .reserved w := by
  rw [decode_of_opcode ho, (opcodeMap_eq_none_iff _ _).mpr h]

theorem decode_eq_base_iff (w : Word) : decode w = .base w ↔ opcodeOf w ≠ opcodeRvx10 := by
  refine ⟨fun h ho => ?_, decode_of_opcode_ne⟩
  by_cases hp : pairOf w ∈ tenPairs
  · obtain ⟨i, hi⟩ := decode_of_mem_tenPairs ho hp
    simp [hi] at h
  · simp [decode_of_not_mem_tenPairs ho hp] at h

theorem exists_decode_eq_instr_iff (w : Word) :
    (∃ i, decode w = .instr i) ↔ opcodeOf w = opcodeRvx10 ∧ pairOf w ∈ tenPairs := by
  refine ⟨fun ⟨i, hi⟩ => ?_, fun ⟨ho, hp⟩ => decode_of_mem_tenPairs ho hp⟩
  obtain ⟨ho, mk, hm, -⟩ := decode_instr_cases hi
  exact ⟨ho, pair_mem_tenPairs_of_opcodeMap hm⟩

theorem decode_eq_reserved_iff (w : Word) :
    decode w = .reserved w ↔ opcodeOf w = opcodeRvx10 ∧ pairOf w ∉ tenPairs := by
  refine ⟨fun h => ⟨?_, fun hp => ?_⟩, fun ⟨ho, hp⟩ => decode_of_not_mem_tenPairs ho hp⟩
  · by_contra ho
    simp [decode_of_opcode_ne ho] at h
  · by_cases ho : opcodeOf w = opcodeRvx10
    · obtain ⟨i, hi⟩ := decode_of_mem_tenPairs ho hp
      simp [hi] at h
    · simp [decode_of_opcode_ne ho] at h

/-- Settles O4: one equivalence for each outcome, and the two words are evaluated. -/
theorem decodeHasThreeOutcomes : Obligations.DecodeHasThreeOutcomes :=
  ⟨fun w => ⟨decode_eq_base_iff w, decode_eq_reserved_iff w, exists_decode_eq_instr_iff w⟩, by decide, by decide⟩

/-! ### Reserved encodings -/

/-- The pairs outside the ten are five ranges (R43). -/
theorem not_mem_tenPairs_iff (f7 : BitVec 7) (f3 : BitVec 3) :
    (f7.toNat, f3.toNat) ∉ tenPairs ↔
      (f7 = 0#7 ∧ 3 ≤ f3.toNat) ∨ (f7 = 1#7 ∧ 4 ≤ f3.toNat) ∨ (f7 = 2#7 ∧ 2 ≤ f3.toNat) ∨
        (f7 = 3#7 ∧ 1 ≤ f3.toNat) ∨ 4 ≤ f7.toNat := by
  simp only [tenPairs, List.mem_cons, Prod.mk.injEq, List.not_mem_nil, or_false, ← BitVec.toNat_inj,
    BitVec.toNat_ofNat]
  omega

/-- Of the 128 * 8 pairs the opcode map leaves out all but the ten (R43). -/
theorem length_reserved_pairs :
    ((List.product (List.range 128) (List.range 8)).filter fun p =>
      (opcodeMap (BitVec.ofNat 7 p.1) (BitVec.ofNat 3 p.2)).isNone).length = 1014 := by
  have hnodup : (List.product (List.range 128) (List.range 8)).Nodup := List.nodup_range.product List.nodup_range
  have hreserved : ((List.product (List.range 128) (List.range 8)).filter fun p =>
      (opcodeMap (BitVec.ofNat 7 p.1) (BitVec.ofNat 3 p.2)).isNone).toFinset =
      (Finset.range 128 ×ˢ Finset.range 8) \ tenPairs.toFinset := by
    ext ⟨a, b⟩
    simp only [List.mem_toFinset, List.mem_filter, List.pair_mem_product, List.mem_range, Finset.mem_sdiff,
      Finset.mem_product, Finset.mem_range, Option.isNone_iff_eq_none, opcodeMap_eq_none_iff, BitVec.toNat_ofNat]
    refine and_congr_right fun ⟨ha, hb⟩ => ?_
    rw [Nat.mod_eq_of_lt ha, Nat.mod_eq_of_lt hb]
  have hsub : tenPairs.toFinset ⊆ Finset.range 128 ×ˢ Finset.range 8 := fun p hp => by
    simpa using tenPairs_lt p (List.mem_toFinset.mp hp)
  rw [← List.toFinset_card_of_nodup (hnodup.filter _), hreserved, Finset.card_sdiff_of_subset hsub, Finset.card_product,
    Finset.card_range, Finset.card_range]
  decide

/-- Settles O5: the pairs outside the ten, as ranges and counted. -/
theorem reservedEncodingsByRange : Obligations.ReservedEncodingsByRange :=
  ⟨fun w => (decode_eq_reserved_iff w).trans (and_congr_right' (not_mem_tenPairs_iff _ _)), length_reserved_pairs⟩

/-! ### Match and mask -/

/-- The match values are the words of the ten pairs with empty register fields (R44). -/
theorem matchRows_values :
    matchRows.map (·.2) = tenPairs.map fun p => encodeR (BitVec.ofNat 7 p.1) 0#5 0#5 (BitVec.ofNat 3 p.2) 0#5 := by
  decide

/-- A word that matches a row of the table is an instruction (R44). -/
theorem decode_of_and_rowMask_mem {w : Word} (h : w &&& rowMask ∈ matchRows.map (·.2)) : ∃ i, decode w = .instr i := by
  rw [matchRows_values] at h
  obtain ⟨⟨a, b⟩, hp, hw⟩ := List.mem_map.mp h
  obtain ⟨ho, h7, h3⟩ := (and_rowMask_eq_iff w _ _).mp hw.symm
  obtain ⟨ha, hb⟩ := tenPairs_lt _ hp
  refine decode_of_mem_tenPairs ho ?_
  rw [pairOf, h7, h3, BitVec.toNat_ofNat, BitVec.toNat_ofNat, Nat.mod_eq_of_lt ha, Nat.mod_eq_of_lt hb]
  exact hp

/-- The rows a word matches depend on its masked bits only, which for an instruction are those of its pair. -/
theorem matchingRows_of_decode {w : Word} {i : Instr} (h : decode w = .instr i) : matchingRows w = [i.mnemonic] := by
  obtain ⟨ho, mk, hm, rfl⟩ := decode_instr_cases h
  have hw : w &&& rowMask = encodeR (funct7Of w) 0#5 0#5 (funct3Of w) 0#5 :=
    (and_rowMask_eq_iff w _ _).mpr ⟨ho, rfl, rfl⟩
  rw [matchingRows, hw]
  obtain ⟨h7, h3, rfl⟩ | ⟨h7, h3, rfl⟩ | ⟨h7, h3, rfl⟩ | ⟨h7, h3, rfl⟩ | ⟨h7, h3, rfl⟩ | ⟨h7, h3, rfl⟩ |
    ⟨h7, h3, rfl⟩ | ⟨h7, h3, rfl⟩ | ⟨h7, h3, rfl⟩ | ⟨h7, h3, rfl⟩ := opcodeMap_cases hm <;>
    (rw [h7, h3]; rfl)

/-- A word that is no instruction matches no row (R44). -/
theorem matchingRows_eq_nil {w : Word} (h : ∀ i, decode w ≠ .instr i) : matchingRows w = [] := by
  rw [matchingRows, List.map_eq_nil_iff, List.filter_eq_nil_iff]
  intro row hrow hmatch
  have hmem : w &&& rowMask ∈ matchRows.map (·.2) := List.mem_map.mpr ⟨row, hrow, (beq_iff_eq.mp hmatch).symm⟩
  obtain ⟨i, hi⟩ := decode_of_and_rowMask_mem hmem
  exact h i hi

/-- Settles O7: an instruction matches the row of its pair alone, and what matches a row is an instruction. -/
theorem matchMaskAgreesWithDecode : Obligations.MatchMaskAgreesWithDecode := by
  intro w
  cases h : decode w with
  | instr i => exact matchingRows_of_decode h
  | base v => exact matchingRows_eq_nil (by simp [h])
  | reserved v => exact matchingRows_eq_nil (by simp [h])

/-! ### Decode, then encode -/

/-- An instruction of the opcode map is assembled from its codes and registers, with 00000 for the field ABS ignores
(R36, R42). -/
theorem encode_of_opcodeMap {f7 : BitVec 7} {f3 : BitVec 3} {mk : RegNum → RegNum → RegNum → Instr}
    (hm : opcodeMap f7 f3 = some mk) (rd rs1 rs2 : RegNum) :
    encode (mk rd rs1 rs2) = encodeR f7 (if f7 = 3#7 then 0#5 else rs2) rs1 f3 rd := by
  obtain ⟨rfl, rfl, rfl⟩ | ⟨rfl, rfl, rfl⟩ | ⟨rfl, rfl, rfl⟩ | ⟨rfl, rfl, rfl⟩ | ⟨rfl, rfl, rfl⟩ | ⟨rfl, rfl, rfl⟩ |
    ⟨rfl, rfl, rfl⟩ | ⟨rfl, rfl, rfl⟩ | ⟨rfl, rfl, rfl⟩ | ⟨rfl, rfl, rfl⟩ := opcodeMap_cases hm <;> rfl

/-- The word of a decoded instruction has the fields of the word it came from, but for the rs2 field of ABS. -/
theorem encode_of_decode {w : Word} {i : Instr} (h : decode w = .instr i) :
    encode i =
      encodeR (funct7Of w) (if funct7Of w = 3#7 then 0#5 else rs2Of w) (rs1Of w) (funct3Of w) (rdOf w) := by
  obtain ⟨-, mk, hm, rfl⟩ := decode_instr_cases h
  exact encode_of_opcodeMap hm _ _ _

/-- Masking out bits 24 to 20 clears the rs2 field and keeps the others. -/
theorem and_clearRs2 {w : Word} (ho : opcodeOf w = opcodeRvx10) :
    w &&& 0xFE0FFFFF#32 = encodeR (funct7Of w) 0#5 (rs1Of w) (funct3Of w) (rdOf w) := by
  have h7 : funct7Of (w &&& 0xFE0FFFFF#32) = funct7Of w := BitVec.extractLsb'_and.trans BitVec.and_allOnes
  have h2 : rs2Of (w &&& 0xFE0FFFFF#32) = 0#5 := BitVec.extractLsb'_and.trans BitVec.and_zero
  have h1 : rs1Of (w &&& 0xFE0FFFFF#32) = rs1Of w := BitVec.extractLsb'_and.trans BitVec.and_allOnes
  have h3 : funct3Of (w &&& 0xFE0FFFFF#32) = funct3Of w := BitVec.extractLsb'_and.trans BitVec.and_allOnes
  have hd : rdOf (w &&& 0xFE0FFFFF#32) = rdOf w := BitVec.extractLsb'_and.trans BitVec.and_allOnes
  have hop : opcodeOf (w &&& 0xFE0FFFFF#32) = opcodeOf w := BitVec.extractLsb'_and.trans BitVec.and_allOnes
  apply word_ext_fields <;> simp [h7, h2, h1, h3, hd, hop, ho]

/-- Settles O9: the encoder puts every field back but the one that ABS ignores. -/
theorem encodeInvertsDecode : Obligations.EncodeInvertsDecode := by
  intro w i h
  have henc := encode_of_decode h
  obtain ⟨ho, -⟩ := decode_instr_cases h
  constructor
  · intro h7
    rw [henc, if_neg h7, encodeR_fields ho]
  · intro h7
    rw [if_pos h7] at henc
    refine ⟨henc.trans (and_clearRs2 ho).symm, fun hw => ?_, fun h2 => ?_⟩
    · rw [← hw, henc, rs2Of_encodeR]
    · rw [henc, ← h2, encodeR_fields ho]

/-- Settles O10: the worked words, evaluated. -/
theorem workedEncodings : Obligations.WorkedEncodings := by
  unfold Obligations.WorkedEncodings
  simp only [List.forall_mem_cons, List.not_mem_nil, false_imp_iff, implies_true]
  decide

end Sys2Proof

/-! The rest of the ten instructions and the laws of their operations (spec/40_bitwise.md to spec/43_unary.md): ORN and
XNOR bit by bit, MAX and MINU by the readings (spec/00_scope.md R9), ROR as a rotation left, ABS by its magnitude. -/

namespace Sys2Proof.Machine

/-! ### ORN and XNOR -/

/-- Bit `i` of `a | ~b` (R61). -/
theorem getLsbD_orn (a b : Word) {i : Nat} (hi : i < 32) :
    (a ||| ~~~b).getLsbD i = false ↔ a.getLsbD i = false ∧ b.getLsbD i = true := by
  simp [hi]

/-- ORN yields `a | ~b` (R61), in whatever form that value is written. -/
theorem yields_orn {a b v : Word} (hv : a ||| ~~~b = v) : Yields .orn a b v :=
  hv ▸ yields_of_binary (op := ornOf) (fun _ _ _ _ => rfl) a b

/-- The corner cases of R61. -/
theorem yields_orn_corners (a : Word) :
    Yields .orn a 0x00000000#32 0xFFFFFFFF#32 ∧ Yields .orn a 0xFFFFFFFF#32 a ∧ Yields .orn a a 0xFFFFFFFF#32 ∧
      Yields .orn 0#32 a (~~~a) :=
  ⟨yields_orn BitVec.or_allOnes, yields_orn BitVec.or_zero, yields_orn (BitVec.or_not_self a),
    yields_orn BitVec.zero_or⟩

/-- ORN is not commutative: with 1 in x2 and 0 in x3 it gives all-ones, with the sources swapped all-ones less 1. -/
theorem orn_not_commutative : ∃ s, exec (.orn 1 2 3) s ≠ exec (.orn 1 3 2) s := by
  refine ⟨State.reset.writeReg 2#5 1#32, fun h => ?_⟩
  have h23 : CompletesWriting (.orn 1 2 3) (State.reset.writeReg 2#5 1#32) 0xFFFFFFFF#32 :=
    yields_orn (a := 1#32) (b := 0#32) rfl _ _ _ _ rfl rfl
  have h32 : CompletesWriting (.orn 1 3 2) (State.reset.writeReg 2#5 1#32) 0xFFFFFFFE#32 :=
    yields_orn (a := 0#32) (b := 1#32) rfl _ _ _ _ rfl rfl
  exact absurd (h23.result_unique h32 rfl (by decide) h) (by decide)

/-- Settles O17: the row of ORN in the opcode map, and one law of its result for every operand. -/
theorem ornResult : Obligations.OrnResult :=
  ⟨encodedAs_of_opcodeMap (f7 := 0#7) (f3 := 1#3) rfl, fun s rd rs1 rs2 => yields_orn rfl s rd rs1 rs2 rfl rfl,
    fun a b => ⟨_, yields_orn rfl, fun _ hi => getLsbD_orn a b hi⟩, yields_orn_corners, orn_not_commutative, by decide,
    yields_orn (by decide), yields_orn (by decide)⟩

/-- XNOR yields `~(a ^ b)` (R62), in whatever form that value is written. -/
theorem yields_xnor {a b v : Word} (hv : ~~~(a ^^^ b) = v) : Yields .xnor a b v :=
  hv ▸ yields_of_binary (op := xnorOf) (fun _ _ _ _ => rfl) a b

theorem xnorOf_comm (a b : Word) : xnorOf a b = xnorOf b a := congrArg _ (BitVec.xor_comm a b)

/-- Complementing either operand complements the exclusive or: the other two forms of R62, and its bits. -/
theorem xnor_forms (a b : Word) : ~~~(a ^^^ b) = a ^^^ ~~~b ∧ ~~~(a ^^^ b) = ~~~a ^^^ b ∧
    ∀ i, i < 32 → ((~~~(a ^^^ b)).getLsbD i = true ↔ a.getLsbD i = b.getLsbD i) := by
  refine ⟨BitVec.not_xor_right, BitVec.not_xor_left, fun i hi => ?_⟩
  simp [hi]

/-- The corner cases of R62. -/
theorem yields_xnor_corners (a : Word) :
    Yields .xnor a 0x00000000#32 (~~~a) ∧ Yields .xnor a 0xFFFFFFFF#32 a ∧ Yields .xnor a a 0xFFFFFFFF#32 ∧
      Yields .xnor 0#32 a (~~~a) := by
  have hones : ~~~(a ^^^ 0xFFFFFFFF#32) = a := by
    rw [(xnor_forms a _).1]
    exact BitVec.xor_zero
  exact ⟨yields_xnor (by rw [BitVec.xor_zero]), yields_xnor hones, yields_xnor (by rw [BitVec.xor_self]; rfl),
    yields_xnor (by rw [BitVec.zero_xor])⟩

/-- Settles O18: the row of XNOR in the opcode map, and its result in its three forms. -/
theorem xnorResult : Obligations.XnorResult :=
  ⟨encodedAs_of_opcodeMap (f7 := 0#7) (f3 := 2#3) rfl, fun s rd rs1 rs2 => yields_xnor rfl s rd rs1 rs2 rfl rfl,
    fun a b => ⟨_, yields_xnor rfl, xnor_forms a b⟩, yields_xnor_corners,
    fun s rd rs1 rs2 => binary_comm xnorOf_comm rd rs1 rs2 s, by decide, yields_xnor (by decide), yields_xnor (by decide)⟩

/-- Where two values differ, one of them has the bit and the other has not. -/
theorem xor_eq_andn_or_andn (a b : Word) : a ^^^ b = andnOf a b ||| andnOf b a := by
  ext i hi
  cases ha : a[i] <;> cases hb : b[i] <;> simp [andnOf, ha, hb]

theorem andnOf_or_and (a b : Word) : andnOf a b ||| (a &&& b) = a := by
  rw [andnOf, ← BitVec.and_or_distrib_left, BitVec.not_or_self, BitVec.and_allOnes]

theorem andnOf_and (a b : Word) : andnOf a b &&& b = 0#32 := by
  rw [andnOf, BitVec.and_assoc, BitVec.not_and_self]
  exact BitVec.and_zero

theorem ornOf_eq_not_andnOf (a b : Word) : ornOf a b = ~~~andnOf b a := by
  rw [ornOf, andnOf, BitVec.not_and, BitVec.not_not, BitVec.or_comm]

theorem xnorOf_xnorOf (a b : Word) : xnorOf (xnorOf a b) b = a := by
  rw [xnorOf, xnorOf, ← BitVec.not_xor_left, BitVec.not_not, BitVec.xor_assoc, BitVec.xor_self, BitVec.xor_zero]

/-- Settles O46: the laws one by one. -/
theorem bitwiseLaws : Obligations.BitwiseLaws := fun a b =>
  ⟨andnOf_or_and a b, andnOf_and a b, ornOf_eq_not_andnOf a b, congrArg _ (xor_eq_andn_or_andn a b), xnorOf_comm a b,
    xnorOf_xnorOf a b⟩

/-! ### The two readings -/

/-- Settles O45: bit 31 decides between the two readings. -/
theorem signedReading : Obligations.SignedReading := by
  intro v
  have hlt := v.isLt
  have hu : unsigned v = v.toNat := rfl
  obtain ⟨hge, hbit, hs⟩ | ⟨hbound, hbit, hs⟩ := signed_cases v
  · exact ⟨by omega, by omega, fun h => absurd (hbit.symm.trans h) (by decide), fun _ => hs, hlt, by omega⟩
  · exact ⟨by omega, by omega, fun _ => hs, fun h => absurd (hbit.symm.trans h) (by decide), hlt, by omega⟩

/-- Bit 31 says on which half of the range the unsigned reading is. -/
theorem getLsbD_31_eq (a : Word) : a.getLsbD 31 = decide (2 ^ 31 ≤ a.toNat) := by
  obtain ⟨hge, hbit, -⟩ | ⟨hlt, hbit, -⟩ := signed_cases a
  · rw [hbit, decide_eq_true hge]
  · rw [hbit, decide_eq_false (Nat.not_le.mpr hlt)]

/-- Where the sign bits agree, the two readings order alike (R9). -/
theorem signed_le_iff_of_bit_eq {a b : Word} (h : a.getLsbD 31 = b.getLsbD 31) :
    signed a ≤ signed b ↔ a.toNat ≤ b.toNat := by
  rw [getLsbD_31_eq, getLsbD_31_eq, decide_eq_decide] at h
  obtain ⟨ha, -, hsa⟩ | ⟨ha, -, hsa⟩ := signed_cases a <;> obtain ⟨hb, -, hsb⟩ | ⟨hb, -, hsb⟩ := signed_cases b <;> omega

/-- Where the sign bits differ, the two readings order the other way round (R9). -/
theorem signed_le_iff_of_bit_ne {a b : Word} (h : a.getLsbD 31 ≠ b.getLsbD 31) :
    signed a ≤ signed b ↔ b.toNat ≤ a.toNat := by
  have hla := a.isLt
  have hlb := b.isLt
  rw [getLsbD_31_eq, getLsbD_31_eq, Ne, decide_eq_decide] at h
  obtain ⟨ha, -, hsa⟩ | ⟨ha, -, hsa⟩ := signed_cases a <;> obtain ⟨hb, -, hsb⟩ | ⟨hb, -, hsb⟩ := signed_cases b <;> omega

/-! ### MAX and MINU -/

/-- MAX selects by the signed readings (R64). -/
theorem maxOf_eq (a b : Word) : maxOf a b = if signed b < signed a then a else b := by
  simp [maxOf]

/-- The signed reading of MAX is the maximum of the signed readings. -/
theorem signed_maxOf (a b : Word) : signed (maxOf a b) = max (signed a) (signed b) := by
  rw [maxOf_eq, apply_ite signed, max_comm, max_def_lt]

theorem maxOf_comm (a b : Word) : maxOf a b = maxOf b a :=
  signed_inj (by rw [signed_maxOf, signed_maxOf, max_comm])

/-- MAX yields the value whose signed reading is the maximum (R64). -/
theorem yields_max {a b v : Word} (hv : max (signed a) (signed b) = signed v) : Yields .max a b v := by
  have hmax : maxOf a b = v := signed_inj ((signed_maxOf a b).trans hv)
  exact hmax ▸ yields_of_binary (fun _ _ _ _ => rfl) a b

/-- MAX with zero clamps from below at zero (R64). -/
theorem yields_max_zero (a : Word) : Yields .max a 0#32 (if 0 < signed a then a else 0#32) := by
  have hzero : signed 0#32 = 0 := by decide
  apply yields_max
  rw [apply_ite signed, hzero, max_comm, max_def_lt]

/-- The corner cases of R64 that hold for every operand. -/
theorem yields_max_corners (a : Word) :
    Yields .max a a a ∧ Yields .max a 0x7FFFFFFF#32 0x7FFFFFFF#32 ∧ Yields .max 0x7FFFFFFF#32 a 0x7FFFFFFF#32 ∧
      Yields .max a 0x80000000#32 a ∧ Yields .max 0x80000000#32 a a ∧
      Yields .max a 0#32 (if 0 < signed a then a else 0#32) :=
  ⟨yields_max (max_self _), yields_max (max_eq_right (signed_le_intMax a)), yields_max (max_eq_left (signed_le_intMax a)),
    yields_max (max_eq_left (signed_intMin_le a)), yields_max (max_eq_right (signed_intMin_le a)), yields_max_zero a⟩

/-- Settles O20: the row of MAX in the opcode map, and its results as maxima of signed readings. -/
theorem maxResult : Obligations.MaxResult :=
  ⟨encodedAs_of_opcodeMap (f7 := 1#7) (f3 := 1#3) rfl,
    fun s rd rs1 rs2 => maxOf_eq _ _ ▸ yields_of_binary (fun _ _ _ _ => rfl) _ _ s rd rs1 rs2 rfl rfl,
    yields_max_corners, fun s rd rs1 rs2 => binary_comm maxOf_comm rd rs1 rs2 s, by decide, yields_max (by decide),
    yields_max_intMin_intMax⟩

/-- MINU selects by the unsigned readings (R65). -/
theorem minuOf_eq (a b : Word) : minuOf a b = if a.toNat < b.toNat then a else b := by
  simp [minuOf]

/-- The unsigned reading of MINU is the minimum of the unsigned readings. -/
theorem toNat_minuOf (a b : Word) : (minuOf a b).toNat = min a.toNat b.toNat := by
  rw [minuOf_eq, apply_ite BitVec.toNat, min_def_lt]

theorem minuOf_comm (a b : Word) : minuOf a b = minuOf b a :=
  BitVec.eq_of_toNat_eq (by rw [toNat_minuOf, toNat_minuOf, min_comm])

/-- MINU yields the value whose unsigned reading is the minimum (R65). -/
theorem yields_minu {a b v : Word} (hv : min a.toNat b.toNat = v.toNat) : Yields .minu a b v := by
  have hmin : minuOf a b = v := BitVec.eq_of_toNat_eq ((toNat_minuOf a b).trans hv)
  exact hmin ▸ yields_of_binary (fun _ _ _ _ => rfl) a b

/-- The corner cases of R65: 0 is the least and 0xFFFFFFFF the greatest unsigned value. -/
theorem yields_minu_corners (a : Word) :
    Yields .minu a a a ∧ Yields .minu a 0#32 0#32 ∧ Yields .minu 0#32 a 0#32 ∧
      Yields .minu a 0xFFFFFFFF#32 a ∧ Yields .minu 0xFFFFFFFF#32 a a := by
  have hle : a.toNat ≤ (0xFFFFFFFF#32).toNat := Nat.le_pred_of_lt a.isLt
  exact ⟨yields_minu (min_self _), yields_minu (Nat.min_zero _), yields_minu (Nat.zero_min _),
    yields_minu (min_eq_left hle), yields_minu (min_eq_right hle)⟩

/-! ### The four operations as a pair and against each other -/

theorem minOf_maxOf_of_le {a b : Word} (h : signed a ≤ signed b) : minOf a b = a ∧ maxOf a b = b :=
  ⟨signed_inj ((signed_minOf a b).trans (min_eq_left h)), signed_inj ((signed_maxOf a b).trans (max_eq_right h))⟩

theorem minOf_maxOf_of_ge {a b : Word} (h : signed b ≤ signed a) : minOf a b = b ∧ maxOf a b = a :=
  ⟨signed_inj ((signed_minOf a b).trans (min_eq_right h)), signed_inj ((signed_maxOf a b).trans (max_eq_left h))⟩

theorem minuOf_maxuOf_of_le {a b : Word} (h : a.toNat ≤ b.toNat) : minuOf a b = a ∧ maxuOf a b = b :=
  ⟨BitVec.eq_of_toNat_eq ((toNat_minuOf a b).trans (min_eq_left h)),
    BitVec.eq_of_toNat_eq ((toNat_maxuOf a b).trans (max_eq_right h))⟩

theorem minuOf_maxuOf_of_ge {a b : Word} (h : b.toNat ≤ a.toNat) : minuOf a b = b ∧ maxuOf a b = a :=
  ⟨BitVec.eq_of_toNat_eq ((toNat_minuOf a b).trans (min_eq_right h)),
    BitVec.eq_of_toNat_eq ((toNat_maxuOf a b).trans (max_eq_left h))⟩

/-- With equal sign bits the signed and the unsigned operations agree. -/
theorem signed_unsigned_agree {a b : Word} (h : a.getLsbD 31 = b.getLsbD 31) :
    minOf a b = minuOf a b ∧ maxOf a b = maxuOf a b := by
  obtain hle | hge := le_total a.toNat b.toNat
  · obtain ⟨hmin, hmax⟩ := minOf_maxOf_of_le ((signed_le_iff_of_bit_eq h).mpr hle)
    obtain ⟨hminu, hmaxu⟩ := minuOf_maxuOf_of_le hle
    exact ⟨hmin.trans hminu.symm, hmax.trans hmaxu.symm⟩
  · obtain ⟨hmin, hmax⟩ := minOf_maxOf_of_ge ((signed_le_iff_of_bit_eq h.symm).mpr hge)
    obtain ⟨hminu, hmaxu⟩ := minuOf_maxuOf_of_ge hge
    exact ⟨hmin.trans hminu.symm, hmax.trans hmaxu.symm⟩

/-- With different sign bits minimum and maximum swap. -/
theorem signed_unsigned_swap {a b : Word} (h : a.getLsbD 31 ≠ b.getLsbD 31) :
    minOf a b = maxuOf a b ∧ maxOf a b = minuOf a b := by
  obtain hle | hge := le_total a.toNat b.toNat
  · obtain ⟨hmin, hmax⟩ := minOf_maxOf_of_ge ((signed_le_iff_of_bit_ne h.symm).mpr hle)
    obtain ⟨hminu, hmaxu⟩ := minuOf_maxuOf_of_le hle
    exact ⟨hmin.trans hmaxu.symm, hmax.trans hminu.symm⟩
  · obtain ⟨hmin, hmax⟩ := minOf_maxOf_of_le ((signed_le_iff_of_bit_ne h).mpr hge)
    obtain ⟨hminu, hmaxu⟩ := minuOf_maxuOf_of_ge hge
    exact ⟨hmin.trans hmaxu.symm, hmax.trans hminu.symm⟩

/-- The minimum and the maximum of different values differ. -/
theorem minuOf_ne_maxuOf {a b : Word} (h : a ≠ b) : minuOf a b ≠ maxuOf a b := by
  obtain hle | hge := le_total a.toNat b.toNat
  · obtain ⟨hminu, hmaxu⟩ := minuOf_maxuOf_of_le hle
    rwa [hminu, hmaxu]
  · obtain ⟨hminu, hmaxu⟩ := minuOf_maxuOf_of_ge hge
    rw [hminu, hmaxu]
    exact h.symm

theorem minuOf_eq_minOf_iff (a b : Word) : minuOf a b = minOf a b ↔ a.getLsbD 31 = b.getLsbD 31 := by
  refine ⟨fun heq => ?_, fun h => (signed_unsigned_agree h).1.symm⟩
  by_contra h
  obtain ⟨hswap, -⟩ := signed_unsigned_swap h
  exact minuOf_ne_maxuOf (fun hab => h (congrArg (·.getLsbD 31) hab)) (heq.trans hswap)

/-- Settles O21: the row of MINU in the opcode map, its results as minima of unsigned readings, and the swap that different
sign bits bring. -/
theorem minuResult : Obligations.MinuResult :=
  ⟨encodedAs_of_opcodeMap (f7 := 1#7) (f3 := 2#3) rfl,
    fun s rd rs1 rs2 => minuOf_eq _ _ ▸ yields_of_binary (fun _ _ _ _ => rfl) _ _ s rd rs1 rs2 rfl rfl,
    yields_minu_corners, minuOf_eq_minOf_iff, fun s rd rs1 rs2 => binary_comm minuOf_comm rd rs1 rs2 s, by decide,
    yields_minu (by decide), yields_minu (by decide), yields_min (by decide)⟩

/-- An operation that an injective reading turns into a commutative, idempotent and associative one is so itself. -/
theorem laws_of_reading {α : Type} {r : Word → α} (hr : Function.Injective r) {g : α → α → α} [Std.Commutative g]
    [Std.IdempotentOp g] [Std.Associative g] {f : Word → Word → Word} (hf : ∀ a b, r (f a b) = g (r a) (r b))
    (a b c : Word) : f a b = f b a ∧ f a a = a ∧ f (f a b) c = f a (f b c) :=
  ⟨hr (by rw [hf, hf, Std.Commutative.comm (op := g)]), hr (by rw [hf, Std.IdempotentOp.idempotent (op := g)]),
    hr (by rw [hf, hf, hf, hf, Std.Associative.assoc (op := g)])⟩

/-- Settles O47: the operands are ordered one way or the other, and the readings carry the laws of `min` and `max`. -/
theorem minMaxLaws : Obligations.MinMaxLaws := by
  have hsigned : Function.Injective signed := fun _ _ => signed_inj
  have hunsigned : Function.Injective (BitVec.toNat (w := 32)) := fun _ _ => BitVec.eq_of_toNat_eq
  constructor
  · intro a b
    exact ⟨(le_total (signed a) (signed b)).imp minOf_maxOf_of_le minOf_maxOf_of_ge,
      (le_total a.toNat b.toNat).imp minuOf_maxuOf_of_le minuOf_maxuOf_of_ge, signed_unsigned_agree, signed_unsigned_swap⟩
  · simp only [List.forall_mem_cons, List.not_mem_nil, false_imp_iff, implies_true, and_true]
    exact ⟨laws_of_reading hsigned signed_minOf, laws_of_reading hsigned signed_maxOf,
      laws_of_reading hunsigned toNat_minuOf, laws_of_reading hunsigned toNat_maxuOf⟩

end Sys2Proof.Machine

/-! ROR and the laws of the two rotations (spec/42_rotate.md), ABS and its laws (spec/43_unary.md), and the constants that
one instruction makes from x0 (spec/49_base_isa_boundary.md R73). -/

namespace Sys2Proof.Machine

/-! ### ROR -/

/-- Right by `d` is left by `32 - d` (R68), which the distances 0 to 31 write modulo 32. -/
theorem rotr32_eq_rotl32 (a : Word) {d : Nat} (hd : d < 32) : rotr32 a d = rotl32 a ((32 - d) % 32) := by
  obtain rfl | hpos := Nat.eq_zero_or_pos d
  · rw [Nat.sub_zero, Nat.mod_self, rotl32_zero]
    simp [rotr32, shl, shr]
  · rw [Nat.mod_eq_of_lt (by omega), rotl32, Nat.sub_sub_self hd.le]
    exact BitVec.or_comm _ _

/-- Bit `j` of a rotation left comes from bit `(j + 32 - d) mod 32` (R67). -/
theorem getLsbD_rotl32 (a : Word) {d j : Nat} (hd : d < 32) (hj : j < 32) :
    (rotl32 a d).getLsbD j = a.getLsbD ((j + (32 - d)) % 32) := by
  have hback : ((j + (32 - d)) % 32 + d) % 32 = j := by omega
  rw [← getLsbD_rotl32_add_mod a hd (Nat.mod_lt (j + (32 - d)) (by decide)), hback]

/-- Bit `(i + d) mod 32` moves to bit `i` (R68). -/
theorem getLsbD_rotr32 (a : Word) {d i : Nat} (hd : d < 32) (hi : i < 32) :
    (rotr32 a d).getLsbD i = a.getLsbD ((i + d) % 32) := by
  have hsource : (i + (32 - (32 - d) % 32)) % 32 = (i + d) % 32 := by omega
  rw [rotr32_eq_rotl32 a hd, getLsbD_rotl32 a (Nat.mod_lt _ (by decide)) hi, hsource]

/-- Distances add modulo 32. -/
theorem rotl32_rotl32 (a : Word) {m n : Nat} (hm : m < 32) (hn : n < 32) :
    rotl32 (rotl32 a m) n = rotl32 a ((m + n) % 32) := by
  apply BitVec.eq_of_getLsbD_eq
  intro j hj
  have hsource : ((j + (32 - n)) % 32 + (32 - m)) % 32 = (j + (32 - (m + n) % 32)) % 32 := by omega
  rw [getLsbD_rotl32 _ hn hj, getLsbD_rotl32 a hm (Nat.mod_lt _ (by decide)),
    getLsbD_rotl32 a (Nat.mod_lt _ (by decide)) hj, hsource]

/-- A full turn changes nothing. -/
theorem rotl32_rotl32_eq_self (a : Word) {m n : Nat} (hm : m < 32) (hn : n < 32) (h : (m + n) % 32 = 0) :
    rotl32 (rotl32 a m) n = a := by
  rw [rotl32_rotl32 a hm hn, h, rotl32_zero]

/-- Settles O48: a rotation right is one left, and rotations left add up. -/
theorem rotationLaws : Obligations.RotationLaws := by
  intro a m n hm hn
  have hright : (32 - n) % 32 < 32 := Nat.mod_lt _ (by decide)
  have hmirror : (32 - (32 - n) % 32) % 32 = n := by omega
  refine ⟨?_, ?_, ?_, rotl32_rotl32 a hm hn⟩
  · rw [rotr32_eq_rotl32 _ hn, rotl32_rotl32_eq_self a hn hright (by omega)]
  · rw [rotr32_eq_rotl32 _ hn, rotl32_rotl32_eq_self a hright hn (by omega)]
  · rw [rotr32_eq_rotl32 a hright, hmirror]

/-- ROR yields the rotation right by bits 4 to 0 of its second operand (R68). -/
theorem yields_ror_extractLsb' (a b : Word) : Yields .ror a b (rotr32 a (b.extractLsb' 0 5).toNat) :=
  yields_ror ((distance_eq_mod b).symm.trans (distance_eq_toNat_extractLsb' b)) rfl

theorem rotr32_zero (a : Word) : rotr32 a 0 = a := (rotr32_eq_rotl32 a (by decide)).trans (rotl32_zero a)

/-- The corner cases of R68 in the distance, for every operand: 16 is half a turn either way. -/
theorem yields_ror_distances (a : Word) :
    Yields .ror a 0#32 a ∧ Yields .ror a 32#32 a ∧ (∃ v, Yields .ror a 33#32 v ∧ Yields .ror a 1#32 v) ∧
      ∃ v, Yields .ror a 16#32 v ∧ Yields .rol a 16#32 v :=
  ⟨yields_ror rfl (rotr32_zero a), yields_ror rfl (rotr32_zero a), ⟨_, yields_ror rfl rfl, yields_ror rfl rfl⟩,
    ⟨rotl32 a 16, yields_ror rfl (rotr32_eq_rotl32 a (by decide)), yields_rol rfl rfl⟩⟩

/-- ROR leaves a value whose bits are all the same as it is, for every distance (R68). -/
theorem yields_ror_of_bits_eq {a : Word} {c : Bool} (h : ∀ i < 32, a.getLsbD i = c) (b : Word) : Yields .ror a b a :=
  yields_ror rfl ((rotr32_eq_rotl32 a (Nat.mod_lt _ (by decide))).trans
    (rotl32_eq_self_of_bits_eq h (Nat.mod_lt _ (by decide))))

/-- The corner cases of R68 in the rotated value, for every distance. -/
theorem yields_ror_zero_allOnes (b : Word) : Yields .ror 0#32 b 0#32 ∧ Yields .ror 0xFFFFFFFF#32 b 0xFFFFFFFF#32 :=
  ⟨yields_ror_of_bits_eq (c := false) (by decide) b, yields_ror_of_bits_eq (c := true) (by decide) b⟩

/-- Settles O24: the row of ROR in the opcode map, the formula as it stands, and where each bit comes from. -/
theorem rorResult : Obligations.RorResult := by
  refine ⟨encodedAs_of_opcodeMap (f7 := 2#7) (f3 := 1#3) rfl,
    fun s rd rs1 rs2 => yields_ror_extractLsb' _ _ s rd rs1 rs2 rfl rfl,
    fun a b => ⟨_, yields_ror_extractLsb' a b, ?_⟩, yields_ror_distances, yields_ror_zero_allOnes, by decide,
    yields_ror rfl (by decide), yields_ror rfl (by decide)⟩
  rintro _ rfl
  exact ⟨fun _ => rfl, fun h0 => (congrArg (rotr32 a) h0).trans (rotr32_zero a),
    fun _ hi => getLsbD_rotr32 a (b.extractLsb' 0 5).isLt hi⟩

/-! ### ABS -/

/-- The constant that `absOf` answers for 0x80000000 is its negation (decision D8), so one rule covers every operand. -/
theorem absOf_eq (a : Word) : absOf a = if a.getLsbD 31 then neg a else a := by
  unfold absOf
  split
  · next h => subst h; decide
  · rfl

theorem absOf_of_negative {a : Word} (h : a.getLsbD 31 = true) : absOf a = neg a := by rw [absOf_eq, if_pos h]

theorem absOf_of_nonneg {a : Word} (h : a.getLsbD 31 = false) : absOf a = a := by rw [absOf_eq, h]; rfl

/-- Negation is the complement to 2^32 (section 5.1). -/
theorem toNat_neg (a : Word) : (neg a).toNat = (2 ^ 32 - a.toNat) % 2 ^ 32 := by
  rw [neg, ← BitVec.neg_eq_not_add, BitVec.toNat_neg]

/-- Negation keeps the magnitude, also of 0x80000000, which it leaves as it is. -/
theorem abs_signed_neg (a : Word) : |signed (neg a)| = |signed a| := by
  have hlt := a.isLt
  have hneg := toNat_neg a
  rw [abs_eq_abs]
  obtain ⟨ha, -, hsa⟩ | ⟨ha, -, hsa⟩ := signed_cases a <;>
    obtain ⟨hn, -, hsn⟩ | ⟨hn, -, hsn⟩ := signed_cases (neg a) <;> omega

/-- The unsigned reading of ABS is the magnitude of the signed reading of its operand, 2^31 for 0x80000000. -/
theorem toNat_absOf (a : Word) : ((absOf a).toNat : Int) = |signed a| := by
  have hlt := a.isLt
  have hneg := toNat_neg a
  obtain ⟨ha, hbit, hsa⟩ | ⟨ha, hbit, hsa⟩ := signed_cases a
  · rw [absOf_of_negative hbit, abs_of_neg (by omega)]
    omega
  · rw [absOf_of_nonneg hbit, abs_of_nonneg (by omega), hsa]

/-- ABS depends on the magnitude only. -/
theorem absOf_congr {a b : Word} (h : |signed a| = |signed b|) : absOf a = absOf b :=
  BitVec.eq_of_toNat_eq (Int.ofNat_inj.mp ((toNat_absOf a).trans (h.trans (toNat_absOf b).symm)))

/-- ABS keeps the magnitude: it is its operand or the negation. -/
theorem abs_signed_absOf (a : Word) : |signed (absOf a)| = |signed a| := by
  cases hbit : a.getLsbD 31 with
  | true => rw [absOf_of_negative hbit, abs_signed_neg]
  | false => rw [absOf_of_nonneg hbit]

/-- 0x80000000 is the one value of magnitude 2^31. -/
theorem toNat_absOf_lt_iff (a : Word) : (absOf a).toNat < 2 ^ 31 ↔ a ≠ 0x80000000#32 := by
  have hmag := toNat_absOf a
  have hlt := a.isLt
  rw [Ne, ← BitVec.toNat_inj, BitVec.toNat_ofNat]
  obtain ⟨ha, -, hsa⟩ | ⟨ha, -, hsa⟩ := signed_cases a
  · rw [abs_of_neg (by omega)] at hmag
    omega
  · rw [abs_of_nonneg (by omega)] at hmag
    omega

/-- Bit 31 of the result of ABS is set for one operand only. -/
theorem getLsbD_31_absOf (a : Word) : (absOf a).getLsbD 31 = true ↔ a = 0x80000000#32 := by
  rw [getLsbD_31_eq, decide_eq_true_iff, ← not_lt, toNat_absOf_lt_iff, not_not]

/-- ABS is the absolute value but for 0x80000000 (R69). -/
theorem signed_absOf {a : Word} (h : a ≠ 0x80000000#32) : signed (absOf a) = |signed a| := by
  have hlt := (toNat_absOf_lt_iff a).mpr h
  obtain ⟨hge, -, -⟩ | ⟨-, -, hs⟩ := signed_cases (absOf a)
  · omega
  · rw [hs, toNat_absOf]

theorem signed_absOf_nonneg_iff (a : Word) : 0 ≤ signed (absOf a) ↔ a ≠ 0x80000000#32 := by
  refine ⟨?_, fun h => signed_absOf h ▸ abs_nonneg _⟩
  rintro h rfl
  exact absurd h (by decide)

/-- ABS is the greater of an operand and its negation. -/
theorem absOf_eq_maxOf (a : Word) : absOf a = maxOf a (neg a) := by
  have hmag := abs_signed_neg a
  obtain ⟨-, hbit, hs⟩ | ⟨-, hbit, hs⟩ := signed_cases a
  · have hle : signed a ≤ signed (neg a) := by
      have hlt := a.isLt
      rw [abs_of_neg (a := signed a) (by omega)] at hmag
      linarith [neg_abs_le (signed (neg a))]
    rw [absOf_of_negative hbit, (minOf_maxOf_of_le hle).2]
  · have hge : signed (neg a) ≤ signed a := by
      rw [abs_of_nonneg (a := signed a) (by omega)] at hmag
      exact (le_abs_self _).trans hmag.le
    rw [absOf_of_nonneg hbit, (minOf_maxOf_of_ge hge).2]

/-- Settles O49: ABS depends on the magnitude, which itself and negation keep. -/
theorem absLaws : Obligations.AbsLaws := fun a =>
  ⟨absOf_congr (abs_signed_absOf a), absOf_congr (abs_signed_neg a).symm, absOf_eq_maxOf a, toNat_absOf a,
    signed_absOf_nonneg_iff a⟩

/-- ABS yields its operation on the value its source held before (R13, R69). -/
theorem absYields {a v : Word} (hv : absOf a = v) : AbsYields a v := by
  rintro s rd rs1 rfl
  subst hv
  exact completesWriting_of_exec (exec_abs rd rs1 s)

/-- ABS yields nothing else: the value can be seen in x2 after ABS of x1. -/
theorem eq_absOf_of_absYields {a v : Word} (h : AbsYields a v) : v = absOf a := by
  have hread : (State.reset.writeReg 1#5 a).readReg 1#5 = a := readReg_writeReg_same _ _ _
  exact (h _ 2#5 1#5 hread).result_unique (absYields rfl _ 2#5 1#5 hread) rfl (by decide) rfl

/-- Settles O25: the words of ABS, one rule for its result, and the magnitude for its signed reading. -/
theorem absResult : Obligations.AbsResult :=
  ⟨encodedAs_of_opcodeMap (f7 := 3#7) (f3 := 0#3) (mk := fun rd rs1 _ => .abs rd rs1) rfl,
    fun s rd rs1 => absYields (absOf_eq _) s rd rs1 rfl, fun _ ha => ⟨_, absYields rfl, signed_absOf ha⟩,
    absYields (by decide), rfl, fun _ hbit => absYields (absOf_of_nonneg hbit), absYields (by decide),
    absYields (by decide), absYields (by decide), absYields (by decide), absYields (by decide),
    ⟨0x80000000#32, fun b _ h => eq_absOf_of_absYields h ▸ getLsbD_31_absOf b⟩, by decide, by decide⟩

/-! ### Constants from x0 -/

/-- Settles O50: x0 holds 0 in every state. -/
theorem constantsFromX0 : Obligations.ConstantsFromX0 := fun s rd =>
  ⟨yields_orn rfl s rd 0 0 (readReg_x0 s) (readReg_x0 s), yields_xnor rfl s rd 0 0 (readReg_x0 s) (readReg_x0 s),
    yields_andn rfl s rd 0 0 (readReg_x0 s) (readReg_x0 s), yields_min rfl s rd 0 0 (readReg_x0 s) (readReg_x0 s)⟩

end Sys2Proof.Machine

/-! All instructions at once: the one form of their meaning, its frame (spec/70_reset_and_hazards.md R103), and the good
order that every step and every run keeps (spec/10_state.md R15, spec/20_memory.md R24). -/

namespace Sys2Proof.Machine

/-! ### What an instruction reads -/

/-- Every instruction writes some operation of its source registers to its destination (R12). ABS, which has no second
source, is an operation that ignores it, so x0 can stand there. -/
theorem exec_eq_finish_op (i : Instr) : ∃ op : Word → Word → Word, ∀ s : State,
    exec i s = finish i.dest (op (s.readReg i.src1) (s.readReg (i.src2.getD 0#5))) s := by
  cases i with
  | andn rd rs1 rs2 => exact ⟨andnOf, fun _ => rfl⟩
  | orn rd rs1 rs2 => exact ⟨ornOf, fun _ => rfl⟩
  | xnor rd rs1 rs2 => exact ⟨xnorOf, fun _ => rfl⟩
  | min rd rs1 rs2 => exact ⟨minOf, fun _ => rfl⟩
  | max rd rs1 rs2 => exact ⟨maxOf, fun _ => rfl⟩
  | minu rd rs1 rs2 => exact ⟨minuOf, fun _ => rfl⟩
  | maxu rd rs1 rs2 => exact ⟨maxuOf, fun _ => rfl⟩
  | rol rd rs1 rs2 => exact ⟨rolOf, fun _ => rfl⟩
  | ror rd rs1 rs2 => exact ⟨rorOf, fun _ => rfl⟩
  | abs rd rs1 => exact ⟨fun a _ => absOf a, fun _ => rfl⟩

/-! ### The frame -/

theorem mem_of_exec_next {i : Instr} {s t : State} (h : exec i s = .next t) : t.mem = s.mem := by
  obtain ⟨v, rfl⟩ := exec_next_cases h
  rw [advancePc_mem, writeReg_mem]

theorem pc_of_exec_next {i : Instr} {s t : State} (h : exec i s = .next t) : t.pc = s.pc + 4#32 := by
  obtain ⟨v, rfl⟩ := exec_next_cases h
  rw [advancePc_pc, writeReg_pc]

/-- The bytes that can be read are those of memory (R18). -/
theorem readByte_of_mem_eq {s t : State} (h : t.mem = s.mem) (a : Word) : t.readByte a = s.readByte a := by
  rw [State.readByte, h, State.readByte]

/-- When the next state of an instruction is known, so is the result it completed with. -/
theorem CompletesWriting.readReg_dest {i : Instr} {s t : State} {v : Word} (h : CompletesWriting i s v)
    (ht : exec i s = .next t) : t.readReg i.dest = if i.dest = 0#5 then 0#32 else v := by
  obtain ⟨t', ht', hv, -⟩ := h
  obtain rfl : t' = t := Host.Outcome.next.inj (ht'.symm.trans ht)
  exact hv

/-- An instruction completes with what stands in its destination afterwards: x0 takes any value (R11). -/
theorem completesWriting_of_exec_next {i : Instr} {s t : State} (h : exec i s = .next t) :
    CompletesWriting i s (t.readReg i.dest) := by
  refine ⟨t, h, ?_, fun r hr => readReg_of_exec_next h hr, pc_of_exec_next h, mem_of_exec_next h⟩
  split
  · next hx0 => rw [hx0, readReg_x0]
  · rfl

/-- Settles O26: every arm ends in `finish`, which answers a next state. -/
theorem everyInstructionCompletes : Obligations.EveryInstructionCompletes := by
  intro i s
  obtain ⟨v, hv⟩ := exec_eq_finish i s
  obtain ⟨t, ht, -⟩ := finish_spec i.dest v s
  exact ⟨t, hv.trans ht, completesWriting_of_exec_next (hv.trans ht)⟩

/-- Settles O27: the frame lemmas of every instruction. -/
theorem onlyDestinationAndPcChange : Obligations.OnlyDestinationAndPcChange := fun _ _ _ h =>
  ⟨fun _ hr => readReg_of_exec_next h hr, readByte_of_mem_eq (mem_of_exec_next h), mem_of_exec_next h, pc_of_exec_next h⟩

/-! ### Noninterference -/

/-- From two states in which an instruction completes with the same value, its destination reads the same afterwards. -/
theorem CompletesWriting.readReg_dest_eq {i : Instr} {s s' t t' : State} {v : Word} (h : CompletesWriting i s v)
    (h' : CompletesWriting i s' v) (ht : exec i s = .next t) (ht' : exec i s' = .next t') :
    t.readReg i.dest = t'.readReg i.dest :=
  (h.readReg_dest ht).trans (h'.readReg_dest ht').symm

/-- Settles O28: the operation of `exec_eq_finish_op` sees the same two values in both states. -/
theorem resultDependsOnSourcesOnly : Obligations.ResultDependsOnSourcesOnly := by
  intro i s s' t t' h1 h2 ht ht'
  have h2' : s.readReg (i.src2.getD 0#5) = s'.readReg (i.src2.getD 0#5) := by
    cases hsrc : i.src2 with
    | none => rw [Option.getD_none, readReg_x0, readReg_x0]
    | some r => exact h2 r hsrc
  obtain ⟨op, hop⟩ := exec_eq_finish_op i
  have hs := completesWriting_of_exec (hop s)
  rw [h1, h2'] at hs
  exact hs.readReg_dest_eq (completesWriting_of_exec (hop s')) ht ht'

/-- Settles O29: both rotations are functions of rs1 and of bits 4 to 0 of rs2. -/
theorem rotationUsesFiveBitsOfRs2 : Obligations.RotationUsesFiveBitsOfRs2 := by
  rintro mk (rfl | rfl) s s' t t' rd rs1 rs2 h1 hbits ht ht'
  · have hs := yields_rol_extractLsb' _ _ s rd rs1 rs2 h1 rfl
    rw [hbits] at hs
    exact hs.readReg_dest_eq (yields_rol_extractLsb' _ _ s' rd rs1 rs2 rfl rfl) ht ht'
  · have hs := yields_ror_extractLsb' _ _ s rd rs1 rs2 h1 rfl
    rw [hbits] at hs
    exact hs.readReg_dest_eq (yields_ror_extractLsb' _ _ s' rd rs1 rs2 rfl rfl) ht ht'

/-- Replacing memory and writing a register do not meet. -/
theorem writeReg_withMem (s : State) (m : Memory) (r : RegNum) (v : Word) :
    ({ s with mem := m } : State).writeReg r v = { s.writeReg r v with mem := m } := by
  unfold State.writeReg
  split <;> rfl

/-- Settles O30: the operation of `exec_eq_finish_op` reads registers only, and `finish` passes memory on. -/
theorem instructionsIgnoreMemory : Obligations.InstructionsIgnoreMemory := by
  intro i s t m h
  obtain ⟨op, hop⟩ := exec_eq_finish_op i
  rw [hop s] at h
  obtain rfl := Host.Outcome.next.inj h
  rw [hop, finish, writeReg_withMem]
  rfl

/-! ### Good order -/

/-- A pc is aligned when it is a multiple of 4 (R24). -/
theorem pcAligned_iff (s : State) : PcAligned s ↔ s.pc.toNat % 4 = 0 := by
  rw [PcAligned, ← BitVec.toNat_inj, toNat_extractLsb'_eq_div_mod, pow_zero, Nat.div_one]
  rfl

/-- The advance of the pc keeps it aligned, at the wrap too (R15). -/
theorem pcAligned_of_exec_next {i : Instr} {s t : State} (ha : PcAligned s) (h : exec i s = .next t) : PcAligned t := by
  rw [pcAligned_iff] at ha ⊢
  rw [pc_of_exec_next h, BitVec.toNat_add, BitVec.toNat_ofNat]
  omega

/-- Settles O31: the advance as an addition of `BitVec 32`. -/
theorem pcAdvancesByFour : Obligations.PcAdvancesByFour := by
  intro i s t h
  have hpc := pc_of_exec_next h
  refine ⟨?_, fun htop => ?_, fun ha => pcAligned_of_exec_next ha h⟩
  · rw [hpc, BitVec.toNat_add]
    rfl
  · rw [hpc, htop]
    rfl

theorem goodOrder_of_exec_next {i : Instr} {s t : State} (hs : GoodOrder s) (h : exec i s = .next t) : GoodOrder t :=
  ⟨pcAligned_of_exec_next hs.1 h, (congrArg Memory.wf (mem_of_exec_next h)).trans hs.2⟩

/-- Settles O39: a step ran one of the ten, or `BaseStep` answered it on a word of another opcode. -/
theorem anyBaseStepKeepsGoodOrder : Obligations.AnyBaseStepKeepsGoodOrder := by
  intro e base hbase s t hs h
  obtain ⟨-, w, -, ⟨i, -, hi⟩ | ⟨hd, hb⟩⟩ := stepWith_next_cases h
  · exact goodOrder_of_exec_next hs hi
  · exact hbase w s t ((decode_eq_base_iff w).mp hd) hs hb

/-- Settles O38: the default `BaseStep` answers no next state, so it keeps good order. -/
theorem stepKeepsGoodOrder : Obligations.StepKeepsGoodOrder :=
  anyBaseStepKeepsGoodOrder Config.endian baseStep fun _ _ _ _ _ h => nomatch h

/-- Settles O53: what every step keeps, every run keeps. -/
theorem anyRunKeepsGoodOrder : Obligations.AnyRunKeepsGoodOrder := fun e base _ hbase _ _ _ hs h =>
  runWith_keeps (anyBaseStepKeepsGoodOrder e base hbase) hs h

/-- Settles O37: the pc is 0 and memory is empty. -/
theorem resetIsInGoodOrder : Obligations.ResetIsInGoodOrder := ⟨(pcAligned_iff _).mpr rfl, reset_mem_wf⟩

/-! ### Launch -/

/-- A register but x0 reads its entry of the file (R10). -/
theorem readReg_succ (s : State) {k : Nat} (h : k < 31) : s.readReg (BitVec.ofNat 5 (k + 1)) = s.x[k] := by
  have hmod : (k + 1) % 32 = k + 1 := Nat.mod_eq_of_lt (by omega)
  have hne : BitVec.ofNat 5 (k + 1) ≠ 0#5 := by
    intro hx0
    have hnat := congrArg BitVec.toNat hx0
    simp only [BitVec.toNat_ofNat] at hnat
    omega
  simp [State.readReg, hne, hmod]

/-- Settles O13: the fields of the state after reset, where every register holds the zero that x0 reads as. -/
theorem stateAfterReset : Obligations.StateAfterReset := by
  refine ⟨readReg_x0 _, fun r => ?_, rfl, fun _ => rfl⟩
  by_cases hx0 : r = 0#5
  · rw [hx0, readReg_x0]
    rfl
  · simp [State.readReg, hx0, State.reset]

/-- Settles O14: the fields of a launch state are its arguments. -/
theorem launchTakesTheParameters : Obligations.LaunchTakesTheParameters := fun _ _ _ =>
  ⟨readReg_x0 _, fun _ h => readReg_succ _ h, rfl, fun _ => rfl⟩

end Sys2Proof.Machine

/-! Fetching and the step (spec/20_memory.md R22 to R25, spec/60_exceptions.md R85): bytes and words, the word placed at
the pc, and one equation for each way a step can go. -/

namespace Sys2Proof

/-! ### Bytes and words -/

/-- The bytes of a word, assembled in little-endian order, are the word (R23). -/
theorem wordOfBytes_little_of_word (w : Word) :
    wordOfBytes .little (w.extractLsb' 0 8) (w.extractLsb' 8 8) (w.extractLsb' 16 8) (w.extractLsb' 24 8) = w := by
  apply BitVec.eq_of_toNat_eq
  have hlt := w.isLt
  simp only [wordOfBytes, toNat_append_eq_add, toNat_extractLsb'_eq_div_mod]
  omega

/-- The byte at the lowest address is the least significant one (R23). -/
theorem bytes_of_wordOfBytes_little (b0 b1 b2 b3 : Byte) :
    (wordOfBytes .little b0 b1 b2 b3).extractLsb' 0 8 = b0 ∧ (wordOfBytes .little b0 b1 b2 b3).extractLsb' 8 8 = b1 ∧
      (wordOfBytes .little b0 b1 b2 b3).extractLsb' 16 8 = b2 ∧
      (wordOfBytes .little b0 b1 b2 b3).extractLsb' 24 8 = b3 := by
  have h0 := b0.isLt
  have h1 := b1.isLt
  have h2 := b2.isLt
  have h3 := b3.isLt
  simp only [← BitVec.toNat_inj, wordOfBytes, toNat_append_eq_add, toNat_extractLsb'_eq_div_mod]
  omega

end Sys2Proof

namespace Sys2Proof.Machine

theorem readWord_of_bytes {e : Endian} {s : State} {a : Word} {b0 b1 b2 b3 : Byte} (h0 : s.readByte a = some b0)
    (h1 : s.readByte (a + 1#32) = some b1) (h2 : s.readByte (a + 2#32) = some b2)
    (h3 : s.readByte (a + 3#32) = some b3) : s.readWord e a = some (wordOfBytes e b0 b1 b2 b3) := by
  rw [readWord_eq, h0, h1, h2, h3]

/-- A word is read unless one of its bytes is not backed (R22). -/
theorem readWord_of_unbacked {e : Endian} {s : State} {a : Word} (h : SomeByteUnbacked s a) : s.readWord e a = none := by
  rw [readWord_eq]
  obtain h | h | h | h := h <;> rw [h]
  · cases s.readByte a <;> rfl
  · cases s.readByte a <;> cases s.readByte (a + 1#32) <;> rfl
  · cases s.readByte a <;> cases s.readByte (a + 1#32) <;> cases s.readByte (a + 2#32) <;> rfl

/-- The word read in little-endian order is the one that memory holds (R23). -/
theorem readWord_little_eq_some_iff (s : State) (a w : Word) : s.readWord .little a = some w ↔ HoldsWord s a w := by
  constructor
  · intro h
    rw [readWord_eq] at h
    split at h
    · next b0 b1 b2 b3 h0 h1 h2 h3 =>
      obtain rfl := Option.some.inj h
      obtain ⟨e0, e1, e2, e3⟩ := bytes_of_wordOfBytes_little b0 b1 b2 b3
      exact ⟨e0.symm ▸ h0, e1.symm ▸ h1, e2.symm ▸ h2, e3.symm ▸ h3⟩
    · cases h
  · rintro ⟨h0, h1, h2, h3⟩
    rw [readWord_of_bytes h0 h1 h2 h3, wordOfBytes_little_of_word]

/-! ### Fetch -/

theorem fetch_of_misaligned {e : Endian} {s : State} (h : ¬ PcAligned s) :
    fetch e s = .stopped (.fetchMisaligned s.pc) := by
  obtain ⟨-, hf⟩ | ⟨ha, -⟩ | ⟨ha, -⟩ := fetch_cases e s
  · exact hf
  · exact absurd ha h
  · exact absurd ha h

theorem fetch_of_readWord_none {e : Endian} {s : State} (ha : PcAligned s) (h : s.readWord e s.pc = none) :
    fetch e s = .stopped (.fetchAccess s.pc) := by
  obtain ⟨hna, -⟩ | ⟨-, -, hf⟩ | ⟨-, w, hw, -⟩ := fetch_cases e s
  · exact absurd ha hna
  · exact hf
  · simp [hw] at h

theorem fetch_of_readWord {e : Endian} {s : State} {w : Word} (ha : PcAligned s) (h : s.readWord e s.pc = some w) :
    fetch e s = .word w := by
  obtain ⟨hna, -⟩ | ⟨-, hn, -⟩ | ⟨-, v, hv, hf⟩ := fetch_cases e s
  · exact absurd ha hna
  · simp [hn] at h
  · obtain rfl : v = w := Option.some.inj (hv.symm.trans h)
    exact hf

theorem readWord_of_fetch {e : Endian} {s : State} {w : Word} (h : fetch e s = .word w) : s.readWord e s.pc = some w := by
  obtain ⟨-, hf⟩ | ⟨-, -, hf⟩ | ⟨-, v, hv, hf⟩ := fetch_cases e s
  · simp [hf] at h
  · simp [hf] at h
  · obtain rfl : v = w := Fetched.word.inj (hf.symm.trans h)
    exact hv

/-- Settles O35: the four bytes assemble to a word that has them in its four places. -/
theorem fetchIsLittleEndian : Obligations.FetchIsLittleEndian := by
  refine ⟨rfl, fun s b0 b1 b2 b3 ha h0 h1 h2 h3 => ⟨⟨wordOfBytes .little b0 b1 b2 b3, ?_, ?_⟩, ?_⟩⟩
  · exact fetch_of_readWord ha (readWord_of_bytes h0 h1 h2 h3)
  · exact bytes_of_wordOfBytes_little b0 b1 b2 b3
  · rw [pcAligned_iff] at ha
    rw [BitVec.toNat_add, BitVec.toNat_ofNat]
    omega

/-! ### Placing a word -/

/-- Stored bytes leave every other address alone. -/
theorem read_writeBytes_of_ne {m : Memory} {a c : Word} {bs : List Byte}
    (h : ∀ k < bs.length, c ≠ a + BitVec.ofNat 32 k) :
    Memory.read (Memory.writeBytes m a bs) c.toNat = Memory.read m c.toNat := by
  induction bs generalizing m a with
  | nil => rfl
  | cons b bs ih =>
    have hhere : c ≠ a := by simpa using h 0 (by simp)
    have hrest : ∀ k < bs.length, c ≠ a + 1#32 + BitVec.ofNat 32 k := fun k hk => by
      have hnext := h (k + 1) (by simpa using hk)
      rwa [Nat.add_comm, BitVec.ofNat_add, ← BitVec.add_assoc] at hnext
    rw [Memory.writeBytes, ih hrest]
    exact Memory.read_write_of_ne m b fun heq => hhere (BitVec.eq_of_toNat_eq heq)

/-- Stored bytes are read back where they do not fill more than the space. -/
theorem readBytes_of_mem_eq_writeBytes {s : State} {m : Memory} {a : Word} {bs : List Byte} (hlen : bs.length ≤ 2 ^ 32)
    (hs : s.mem = Memory.writeBytes m a bs) : s.readBytes a bs.length = some bs := by
  induction bs generalizing m a with
  | nil => rfl
  | cons b bs ih =>
    rw [List.length_cons] at hlen
    have hlater : ∀ k < bs.length, a ≠ a + 1#32 + BitVec.ofNat 32 k := by
      intro k hk heq
      have hnat := congrArg BitVec.toNat heq
      have hlt := a.isLt
      simp only [BitVec.toNat_add, BitVec.toNat_ofNat] at hnat
      omega
    have hfirst : s.readByte a = some b := by
      rw [State.readByte, hs, Memory.writeBytes, read_writeBytes_of_ne hlater, Memory.read_write_same]
    rw [List.length_cons, State.readBytes, hfirst, ih (by omega) hs]

/-- All four bytes of a word are placed, in the byte order (R23). -/
theorem placeAtPc_mem (e : Endian) (s : State) (w : Word) :
    (placeAtPc e s w).mem = Memory.writeBytes s.mem s.pc (bytesOfWord e w) := by
  cases e <;> rfl

theorem length_bytesOfWord (e : Endian) (w : Word) : (bytesOfWord e w).length = 4 := by cases e <;> rfl

/-- The placed word is the one that is read. -/
theorem readWord_placeAtPc (e : Endian) (s : State) (w : Word) : (placeAtPc e s w).readWord e s.pc = some w := by
  have hbytes : (placeAtPc e s w).readBytes s.pc 4 = some (bytesOfWord e w) := by
    have hlen := length_bytesOfWord e w
    exact hlen ▸ readBytes_of_mem_eq_writeBytes (by omega) (placeAtPc_mem e s w)
  rw [State.readWord, hbytes]
  cases e <;> exact congrArg some (wordOfBytes_little_of_word w)

/-- Settles O36: the four bytes are read back, and no other byte is written. -/
theorem placedWordIsFetched : Obligations.PlacedWordIsFetched := by
  refine fun e s w ha => ⟨fetch_of_readWord ha (readWord_placeAtPc e s w), rfl, fun _ => rfl, fun a h0 h1 h2 h3 => ?_⟩
  rw [State.readByte, placeAtPc_mem, State.readByte]
  apply read_writeBytes_of_ne
  rw [length_bytesOfWord]
  intro k hk
  interval_cases k
  · simpa using h0
  · exact h1
  · exact h2
  · exact h3

/-! ### One step -/

section
variable {e : Endian} {base : Word → State → Host.Outcome State Fault Refusal} {s : State} {w : Word}

theorem stepWith_of_stopped {f : Fault} (h : fetch e s = .stopped f) : stepWith e base s = .fault f := by
  rw [stepWith, h]; rfl

theorem stepWith_of_instr {i : Instr} (h : fetch e s = .word w) (hd : decode w = .instr i) :
    stepWith e base s = exec i s := by
  rw [stepWith, h]; simp only [hd, execDecoded]

theorem stepWith_of_base (h : fetch e s = .word w) (ho : opcodeOf w ≠ opcodeRvx10) : stepWith e base s = base w s := by
  rw [stepWith, h]; simp only [decode_of_opcode_ne ho, execDecoded]

theorem stepWith_of_reserved (h : fetch e s = .word w) (hd : decode w = .reserved w) :
    stepWith e base s = .fault (.illegalInstruction w) := by
  rw [stepWith, h]; simp only [hd, execDecoded, raise]

end

theorem fetch_of_holdsWord {s : State} {w : Word} (ha : PcAligned s) (h : HoldsWord s s.pc w) :
    fetch .little s = .word w :=
  fetch_of_readWord ha ((readWord_little_eq_some_iff s s.pc w).mpr h)

/-- Settles O32: the word that memory holds is fetched, and its instruction is the step. -/
theorem stepRunsTheDecodedInstruction : Obligations.StepRunsTheDecodedInstruction := fun _ _ _ ha hw hd _ =>
  stepWith_of_instr (fetch_of_holdsWord ha hw) hd

/-- An instruction has a next state, so a step that fetches one is safe (R82). -/
theorem safeStep_of_decode {s : State} {w : Word} {i : Instr} (ha : PcAligned s) (hw : HoldsWord s s.pc w)
    (hd : decode w = .instr i) : SafeStep s := by
  obtain ⟨t, ht, -⟩ := everyInstructionCompletes i s
  exact ⟨t, (stepWith_of_instr (fetch_of_holdsWord ha hw) hd).trans ht⟩

/-- Settles O33: one equation of the step for each check that can fail, and the safe steps. -/
theorem stepChecksInOrder : Obligations.StepChecksInOrder := by
  intro s
  refine ⟨fun hna => stepWith_of_stopped (fetch_of_misaligned hna),
    fun ha hu => stepWith_of_stopped (fetch_of_readWord_none ha (readWord_of_unbacked hu)), fun w ha hw => ?_⟩
  have hf := fetch_of_holdsWord ha hw
  refine ⟨fun ho => stepWith_of_base hf ho, fun ho hp => stepWith_of_reserved hf (decode_of_not_mem_tenPairs ho hp),
    fun ho hp => ?_⟩
  obtain ⟨i, hd⟩ := decode_of_mem_tenPairs ho hp
  exact safeStep_of_decode ha hw hd

/-- Settles O34: a step that goes on ran an instruction, and an instruction goes on. -/
theorem safeStepsAreRvx10Steps : Obligations.SafeStepsAreRvx10Steps := by
  intro s
  constructor
  · rintro ⟨t, ht⟩
    obtain ⟨ha, w, i, hf, hd, -⟩ := step_next_cases ht
    exact ⟨ha, w, i, (readWord_little_eq_some_iff s s.pc w).mp (readWord_of_fetch hf), hd⟩
  · rintro ⟨ha, w, i, hw, hd⟩
    exact safeStep_of_decode ha hw hd

/-- A step on a word of the opcode 0x0B, or without a word, is the same under every `BaseStep` (R70). -/
theorem stepWith_eq_of_opcode {e : Endian} {s : State} (h : ∀ w, fetch e s = .word w → opcodeOf w = opcodeRvx10)
    (base base' : Word → State → Host.Outcome State Fault Refusal) : stepWith e base s = stepWith e base' s := by
  cases hf : fetch e s with
  | stopped f => rw [stepWith_of_stopped hf, stepWith_of_stopped hf]
  | word w =>
    have ho := h w hf
    by_cases hp : pairOf w ∈ tenPairs
    · obtain ⟨i, hd⟩ := decode_of_mem_tenPairs ho hp
      rw [stepWith_of_instr hf hd, stepWith_of_instr hf hd]
    · have hd := decode_of_not_mem_tenPairs ho hp
      rw [stepWith_of_reserved hf hd, stepWith_of_reserved hf hd]

/-- Settles O40: the words of another opcode are `BaseStep`'s, all others are not. -/
theorem baseStepGetsOtherWordsOnly : Obligations.BaseStepGetsOtherWordsOnly := fun _ _ _ =>
  ⟨fun _ hf ho => ⟨stepWith_of_base hf ho, stepWith_of_base hf ho⟩, fun h => stepWith_eq_of_opcode h _ _⟩

end Sys2Proof.Machine

/-! Runs (spec/70_reset_and_hazards.md R104): steps one after the other are what a run does until it is over, so a fact
about steps is one about every run. -/

namespace Sys2Proof.Machine

/-! ### Steps one after the other -/

/-- The host's machine with the steps of another byte order and `BaseStep` (R7). -/
abbrev coreWith (e : Endian) (base : Word → State → Host.Outcome State Fault Refusal) : Host.Core :=
  { State := State, Fault := Fault, Refusal := Refusal, step := stepWith e base, reset := State.reset }

/-- `k` steps of it, from a state to an outcome. -/
def stepsWith (e : Endian) (base : Word → State → Host.Outcome State Fault Refusal) (k : Nat) (s : State) :
    Host.Outcome State Fault Refusal :=
  Host.Core.run (coreWith e base) k s

/-- Under the defaults they are those of the model's own machine. -/
theorem stepsWith_default (k : Nat) (s : State) : stepsWith Config.endian baseStep k s = Host.Core.run core k s := rfl

section
variable {e : Endian} {base : Word → State → Host.Outcome State Fault Refusal} {fin : State → Bool}

/-- Steps go on from a next state. -/
theorem stepsWith_of_next {s u : State} (h : stepWith e base s = .next u) (k : Nat) :
    stepsWith e base (k + 1) s = stepsWith e base k u := by
  simp only [stepsWith, Host.Core.run, h]

/-- Steps that answer a next state begin with one that does. -/
theorem stepsWith_succ_next_cases {k : Nat} {s t : State} (h : stepsWith e base (k + 1) s = .next t) :
    ∃ u, stepWith e base s = .next u ∧ stepsWith e base k u = .next t := by
  cases hs : stepWith e base s with
  | next u => exact ⟨u, rfl, stepsWith_of_next hs k ▸ h⟩
  | fault f => simp [stepsWith, Host.Core.run, hs] at h
  | refused r => simp [stepsWith, Host.Core.run, hs] at h

/-- A run that is not over along its first `n` steps goes on from the state they answer. -/
theorem runWith_add_of_stepsWith {n : Nat} {s t : State} (h : stepsWith e base n s = .next t)
    (hfin : ∀ k < n, ∀ u, stepsWith e base k s = .next u → fin u = false) (j : Nat) :
    runWith e base fin (n + j) s = runWith e base fin j t := by
  induction n generalizing s with
  | zero =>
    obtain rfl := Host.Outcome.next.inj h
    rw [Nat.zero_add]
  | succ n ih =>
    obtain ⟨u, hs, hu⟩ := stepsWith_succ_next_cases h
    have hnow : fin s = false := hfin 0 (Nat.zero_lt_succ n) s rfl
    have hlater : ∀ k < n, ∀ v, stepsWith e base k u = .next v → fin v = false := fun k hk v hv =>
      hfin (k + 1) (Nat.succ_lt_succ hk) v ((stepsWith_of_next hs k).trans hv)
    rw [Nat.succ_add, runWith_of_next hnow hs, ih hu hlater]

end

/-- Settles O41: each step ran an instruction, which leaves memory alone. -/
theorem runNeverChangesMemory : Obligations.RunNeverChangesMemory := by
  intro k s t hrun
  have hmem : t.mem = s.mem := by
    have h := (stepsWith_default k s).trans hrun
    clear hrun
    induction k generalizing s with
    | zero => rw [Host.Outcome.next.inj h]
    | succ k ih =>
      obtain ⟨u, hs, hu⟩ := stepsWith_succ_next_cases h
      obtain ⟨-, w, i, -, -, hi⟩ := step_next_cases hs
      exact (ih u hu).trans (mem_of_exec_next hi)
  exact ⟨hmem, readByte_of_mem_eq hmem⟩

/-! ### Runs that end -/

/-- A run that stands where its steps are used up is not over there, and goes on from there with more. -/
theorem runWith_add_of_running {e : Endian} {base : Word → State → Host.Outcome State Fault Refusal}
    {fin : State → Bool} {j : Nat} {s t : State} (h : runWith e base fin j s = .running t) :
    fin t = false ∧ ∀ k, runWith e base fin (j + k) s = runWith e base fin k t := by
  induction j generalizing s with
  | zero =>
    cases hf : fin s with
    | true => simp [runWith_of_over hf] at h
    | false =>
      obtain rfl : s = t := RunResult.running.inj ((runWith_zero hf).symm.trans h)
      exact ⟨hf, fun k => by rw [Nat.zero_add]⟩
  | succ j ih =>
    cases hf : fin s with
    | true => simp [runWith_of_over hf] at h
    | false =>
      cases hs : stepWith e base s with
      | next u =>
        rw [runWith_of_next hf hs] at h
        obtain ⟨hft, hrun⟩ := ih h
        exact ⟨hft, fun k => by rw [Nat.succ_add, runWith_of_next hf hs, hrun]⟩
      | fault f => simp [runWith_of_fault hf hs] at h
      | refused r => simp [runWith_of_refused hf hs] at h

/-- Settles O43: the run goes on to the state where the step stops, and stops there. -/
theorem stopsAreTerminal : Obligations.StopsAreTerminal := by
  intro fin s t j k h
  obtain ⟨hf, hrun⟩ := runWith_add_of_running h
  exact ⟨fun _ hs => (hrun (k + 1)).trans (runWith_of_fault hf hs k),
    fun _ hs => (hrun (k + 1)).trans (runWith_of_refused hf hs k)⟩

/-- The recommended end is judged modulo 2^32 (R104, C6). -/
theorem endOfRun_iff (b : Word) (n : Nat) (s : State) :
    endOfRun b n s = true ↔ s.pc.toNat = (b.toNat + 4 * n) % 2 ^ 32 := by
  rw [endOfRun, beq_iff_eq, ← BitVec.toNat_inj, BitVec.toNat_add, BitVec.toNat_ofNat, Nat.add_mod_mod]

/-- Settles O44: the end is judged before the fetch. -/
theorem runIsOverWithoutAFetch : Obligations.RunIsOverWithoutAFetch := ⟨fun _ _ k h => runWith_of_over h k, endOfRun_iff⟩

/-- Settles O51: as long as no step is refused, no word of another opcode was fetched, so no step depended on `BaseStep`. -/
theorem unrefusedRunIgnoresBaseStep : Obligations.UnrefusedRunIgnoresBaseStep := by
  intro e base fin k s h
  induction k generalizing s with
  | zero => rfl
  | succ k ih =>
    cases hf : fin s with
    | true => rw [runWith_of_over hf, runWith_of_over hf]
    | false =>
      have hopcode : ∀ w, fetch e s = .word w → opcodeOf w = opcodeRvx10 := by
        intro w hw
        by_contra ho
        exact h w (runWith_of_refused hf (stepWith_of_base hw ho) k)
      have hsame := stepWith_eq_of_opcode hopcode base baseStep
      cases hs : stepWith e baseStep s with
      | next u =>
        rw [runWith_of_next hf hs] at h
        rw [runWith_of_next hf hs, runWith_of_next hf (hsame.trans hs), ih u h]
      | fault f => rw [runWith_of_fault hf hs, runWith_of_fault hf (hsame.trans hs)]
      | refused r => rw [runWith_of_refused hf hs, runWith_of_refused hf (hsame.trans hs)]

/-! ### Straight-line runs -/

/-- From the pc on stand `n` words of RVX10 in byte order `e` (R71): `NextWordsAreRvx10` in either order. -/
def StraightLine (e : Endian) (s : State) (n : Nat) : Prop :=
  ∀ k, k < n → ∃ w i, s.readWord e (s.pc + BitVec.ofNat 32 (4 * k)) = some w ∧ decode w = .instr i

theorem straightLine_of_nextWords {s : State} {n : Nat} (h : NextWordsAreRvx10 s n) : StraightLine .little s n := by
  intro k hk
  obtain ⟨w, i, hw, hd⟩ := h k hk
  exact ⟨w, i, (readWord_little_eq_some_iff _ _ _).mpr hw, hd⟩

theorem StraightLine.mono {e : Endian} {s : State} {m n : Nat} (h : StraightLine e s n) (hm : m ≤ n) :
    StraightLine e s m := fun k hk => h k (hk.trans_le hm)

/-- What a word read answers depends on memory only (R20). -/
theorem readWord_of_mem_eq {s t : State} (h : t.mem = s.mem) (e : Endian) (a : Word) : t.readWord e a = s.readWord e a := by
  simp only [readWord_eq, readByte_of_mem_eq h]

/-- The address of word `k + 1` is that of word `k` after the pc has advanced. -/
theorem pc_add_succ (pc : Word) (k : Nat) :
    pc + 4#32 + BitVec.ofNat 32 (4 * k) = pc + BitVec.ofNat 32 (4 * (k + 1)) := by
  rw [BitVec.add_assoc, ← BitVec.ofNat_add, Nat.mul_succ, Nat.add_comm]

/-- The first word of a straight line runs, and the rest is a straight line. -/
theorem stepWith_of_straightLine {e : Endian} (base : Word → State → Host.Outcome State Fault Refusal) {s : State}
    {n : Nat} (ha : PcAligned s) (h : StraightLine e s (n + 1)) :
    ∃ u, stepWith e base s = .next u ∧ u.pc = s.pc + 4#32 ∧ u.mem = s.mem ∧ PcAligned u ∧ StraightLine e u n := by
  obtain ⟨w, i, hw, hd⟩ := h 0 (Nat.zero_lt_succ n)
  have hf : fetch e s = .word w := fetch_of_readWord ha (by simpa using hw)
  obtain ⟨u, hu, -⟩ := everyInstructionCompletes i s
  have hpc := pc_of_exec_next hu
  have hmem := mem_of_exec_next hu
  refine ⟨u, (stepWith_of_instr hf hd).trans hu, hpc, hmem, pcAligned_of_exec_next ha hu, fun k hk => ?_⟩
  rw [hpc, pc_add_succ, readWord_of_mem_eq hmem]
  exact h (k + 1) (Nat.succ_lt_succ hk)

/-- The steps along a straight line run its words, under every `BaseStep`. -/
theorem stepsWith_of_straightLine {e : Endian} (base : Word → State → Host.Outcome State Fault Refusal) {s : State}
    {n : Nat} (ha : PcAligned s) (h : StraightLine e s n) :
    ∃ t, stepsWith e base n s = .next t ∧ t.pc = s.pc + BitVec.ofNat 32 (4 * n) ∧ t.mem = s.mem := by
  induction n generalizing s with
  | zero => exact ⟨s, rfl, by simp, rfl⟩
  | succ n ih =>
    obtain ⟨u, hs, hpc, hmem, hau, hu⟩ := stepWith_of_straightLine base ha h
    obtain ⟨t, ht, htpc, htmem⟩ := ih hau hu
    exact ⟨t, (stepsWith_of_next hs n).trans ht, by rw [htpc, hpc, pc_add_succ], htmem.trans hmem⟩

/-- Before the last word of a straight line that does not fill the space, the recommended end does not hold. -/
theorem endOfRun_eq_false_of_straightLine {e : Endian} {base : Word → State → Host.Outcome State Fault Refusal}
    {s u : State} {k n : Nat} (ha : PcAligned s) (h : StraightLine e s n) (hn : n < 2 ^ 30) (hk : k < n)
    (hu : stepsWith e base k s = .next u) : endOfRun s.pc n u = false := by
  obtain ⟨v, hv, hpc, -⟩ := stepsWith_of_straightLine base ha (h.mono hk.le)
  obtain rfl : v = u := Host.Outcome.next.inj (hv.symm.trans hu)
  rw [Bool.eq_false_iff, Ne, endOfRun_iff, hpc, BitVec.toNat_add, BitVec.toNat_ofNat]
  omega

/-- After the last word it holds. -/
theorem endOfRun_of_pc_eq {b : Word} {n : Nat} {t : State} (h : t.pc = b + BitVec.ofNat 32 (4 * n)) :
    endOfRun b n t = true := beq_iff_eq.mpr h

/-- Settles O42: the steps run the words, and the run is the steps until the end holds. -/
theorem straightLineRunCompletes : Obligations.StraightLineRunCompletes := by
  intro s n ha hwords
  have hline := straightLine_of_nextWords hwords
  obtain ⟨t, ht, hpc, hmem⟩ := stepsWith_of_straightLine baseStep ha hline
  refine ⟨t, (stepsWith_default n s).symm.trans ht, hpc, hmem, fun hn => ?_⟩
  have hbefore : ∀ k < n, ∀ u, stepsWith .little baseStep k s = .next u → endOfRun s.pc n u = false :=
    fun k hk u hu => endOfRun_eq_false_of_straightLine ha hline hn hk hu
  constructor
  · exact (runWith_add_of_stepsWith ht hbefore 0).trans (runWith_of_over (endOfRun_of_pc_eq hpc) 0)
  · intro k hk
    obtain ⟨u, hu, -⟩ := stepsWith_of_straightLine baseStep ha (hline.mono hk.le)
    have hrun := runWith_add_of_stepsWith hu (fun j hj => hbefore j (hj.trans hk)) 0
    exact ⟨u, hrun.trans (runWith_zero (hbefore k hk u hu))⟩

/-- Settles O52: the run goes through the words under every parameter, and is over after the last. -/
theorem straightLineRunUnderEveryParameter : Obligations.StraightLineRunUnderEveryParameter := by
  intro e base x resetPc memMap n hn ha hwords
  have hline : StraightLine e (State.launch x resetPc memMap) n := hwords
  obtain ⟨t, ht, hpc, hmem⟩ := stepsWith_of_straightLine base ha hline
  refine ⟨t, fun j => ?_, hpc, hmem⟩
  have hrun := runWith_add_of_stepsWith ht (fun k hk u hu => endOfRun_eq_false_of_straightLine ha hline hn hk hu) j
  exact hrun.trans (runWith_of_over (endOfRun_of_pc_eq hpc) j)

end Sys2Proof.Machine
